-- ==== Sys2Proof/Word.lean ====
section
/-! DEFINITION. The word types of the block (spec/00_scope.md R9, R11). -/

namespace Sys2Proof

/-- One byte of the Strip Buffer, of the output register and of the emission trace. -/
abbrev Byte := BitVec 8

/-- The Transfer Cursor's 16 bits, two's complement (R9: CW = 16). -/
abbrev CursorWord := BitVec 16

/-- A colour operand or a returned value, 32 bits unsigned (R9: VW = 32). -/
abbrev Value := BitVec 32

/-- A host operation in binary form, the 64-bit command word (R61). -/
abbrev Command := BitVec 64

end Sys2Proof
end

