-- ==== Sys2Proof/Syntax.lean ====
section
/-! DEFINITION. The operations at the spec's named level (spec/30_encoding.md R60, R62, R63), one constructor per
row of opcode_table.json, and what arrives at the block's two inputs (R61, R66). -/

namespace Sys2Proof

/-- The ten host operations and the engine event (spec/00_scope.md R6). An index operand is a signed integer
(R63); WellFormed says which integers a command word can carry. Log 11. -/
inductive Instr where
  | construct (count : Int)
  | init
  | setColor (index : Int) (colour : Value)
  | getColor (index : Int)
  | clear
  | beginTransfer
  | isDone
  | refresh
  | pack (red green blue : Byte)
  | peek (index : Int)
  | tick
deriving DecidableEq, Repr

/-- What the outside presents to the block: a command word on `cmd` (R61) or a pulse on `tick` (R66). -/
inductive Stimulus where
  | command (w : Command)
  | pulse
deriving DecidableEq, Repr

/-- Why a command word is invalid (R67), in the order in which R67 lists the causes. -/
inductive Reject where
  /-- `op` is 0x00 or from 0x0B to 0xFF. -/
  | unassignedOp
  /-- Bits [55:48] are not zero. -/
  | zeroFieldSet
  /-- `idx` is not zero where R62 says must be zero. -/
  | indexFieldSet
  /-- `data`, or for PACK `data[31:24]`, is not zero where R62 says must be zero. -/
  | dataFieldSet
deriving DecidableEq, Repr

end Sys2Proof
end

