-- ==== Sys2Proof/WellFormed.lean ====
section
/-! DEFINITION. Which operations a command word can carry: the operand ranges of spec/30_encoding.md R63. -/

namespace Sys2Proof

/-- An index operand fits the signed 16-bit field `idx` (R63). -/
def indexFits (i : Int) : Bool := decide (-32768 ≤ i) && decide (i ≤ 32767)

/-- The operand ranges of R63. Colours and PACK's components are bit vectors of their field's width, so only index
operands are checked. A value in range for the field but out of range for the operation is well formed (R68). -/
def Instr.wellFormed : Instr → Bool
  | .construct count => indexFits count
  | .init => true
  | .setColor index _ => indexFits index
  | .getColor index => indexFits index
  | .clear => true
  | .beginTransfer => true
  | .isDone => true
  | .refresh => true
  | .pack _ _ _ => true
  | .peek index => indexFits index
  | .tick => true

end Sys2Proof
end

