-- ==== Sys2Proof/Decode.lean ====
section
/-! DEFINITION. The decoder and the encoder of spec/30_encoding.md: the command word R61, the opcode map R64, the
reserved encodings R67, the engine event R66. -/

namespace Sys2Proof

/-- Field `op`, bits [63:56] (R61). -/
def opField (w : Command) : BitVec 8 := w.extractLsb' 56 8

/-- Field `zero`, bits [55:48] (R61). -/
def zeroField (w : Command) : BitVec 8 := w.extractLsb' 48 8

/-- Field `idx`, bits [47:32] (R61). -/
def indexField (w : Command) : BitVec 16 := w.extractLsb' 32 16

/-- Field `data`, bits [31:0] (R61). -/
def dataField (w : Command) : BitVec 32 := w.extractLsb' 0 32

/-- `i` if the must-be-zero fields that R62 names for it are zero, else the field that is not. -/
def ifZero (index : BitVec 16) (data : BitVec 32) (i : Instr) : Except Reject Instr :=
  if index ≠ 0#16 then .error .indexFieldSet
  else if data ≠ 0#32 then .error .dataFieldSet
  else .ok i

/-- The operation with code `op` and operand fields `index` and `data` (R62, R63, R64). PACK's arguments stand in
argument order, red highest (R62, D28). -/
def decodeFields (op : BitVec 8) (index : BitVec 16) (data : BitVec 32) : Except Reject Instr :=
  match op.toNat with
  | 0x01 => ifZero 0#16 data (.construct index.toInt)
  | 0x02 => ifZero index data .init
  | 0x03 => .ok (.setColor index.toInt data)
  | 0x04 => ifZero 0#16 data (.getColor index.toInt)
  | 0x05 => ifZero index data .clear
  | 0x06 => ifZero index data .beginTransfer
  | 0x07 => ifZero index data .isDone
  | 0x08 => ifZero index data .refresh
  | 0x09 => ifZero index (data &&& 0xFF000000#32)
      (.pack (data.extractLsb' 16 8) (data.extractLsb' 8 8) (data.extractLsb' 0 8))
  | 0x0A => ifZero 0#16 data (.peek index.toInt)
  | _ => .error .unassignedOp

/-- Every 64-bit word is one of the ten operations or invalid, with the reason (R67). -/
def decodeCommand (w : Command) : Except Reject Instr :=
  if zeroField w ≠ 0#8 then .error .zeroFieldSet
  else decodeFields (opField w) (indexField w) (dataField w)

/-- What a stimulus asks for: the `tick` pulse is TICK (R66), a command word decodes as R64 says. -/
def decode : Stimulus → Except Reject Instr
  | .pulse => .ok .tick
  | .command w => decodeCommand w

/-- A command word put together from its fields as R70 writes it, `(op << 56) + (index << 32) + data`; the fields do
not overlap, so the sum is the bitwise OR. -/
def commandWord (op : BitVec 8) (index : BitVec 16) (data : BitVec 32) : Command :=
  (op.setWidth 64 <<< 56) ||| (index.setWidth 64 <<< 32) ||| data.setWidth 64

/-- PACK's data operand, `(r << 16) + (g << 8) + b` (R62, R70). -/
def packOperand (red green blue : Byte) : BitVec 32 :=
  (red.setWidth 32 <<< 16) ||| (green.setWidth 32 <<< 8) ||| blue.setWidth 32

/-- The command word of a host operation, or the pulse for TICK, from the tables of R64 and R70. -/
def encode : Instr → Stimulus
  | .construct count => .command (commandWord 0x01#8 (BitVec.ofInt 16 count) 0#32)
  | .init => .command (commandWord 0x02#8 0#16 0#32)
  | .setColor index colour => .command (commandWord 0x03#8 (BitVec.ofInt 16 index) colour)
  | .getColor index => .command (commandWord 0x04#8 (BitVec.ofInt 16 index) 0#32)
  | .clear => .command (commandWord 0x05#8 0#16 0#32)
  | .beginTransfer => .command (commandWord 0x06#8 0#16 0#32)
  | .isDone => .command (commandWord 0x07#8 0#16 0#32)
  | .refresh => .command (commandWord 0x08#8 0#16 0#32)
  | .pack red green blue => .command (commandWord 0x09#8 0#16 (packOperand red green blue))
  | .peek index => .command (commandWord 0x0A#8 (BitVec.ofInt 16 index) 0#32)
  | .tick => .pulse

/-- One row of the opcode map (R64). -/
structure OpcodeRow where
  mnemonic : String
  mask : Command
  pattern : Command
deriving DecidableEq, Repr

/-- The opcode map, copied from R64: a word `w` selects the row with `w &&& mask = pattern`. The decoder does not
read it; that the two agree is a statement. -/
def opcodeMap : List OpcodeRow :=
  [ ⟨"CONSTRUCT", 0xFFFF0000FFFFFFFF#64, 0x0100000000000000#64⟩,
    ⟨"INIT",      0xFFFFFFFFFFFFFFFF#64, 0x0200000000000000#64⟩,
    ⟨"SETCOLOR",  0xFFFF000000000000#64, 0x0300000000000000#64⟩,
    ⟨"GETCOLOR",  0xFFFF0000FFFFFFFF#64, 0x0400000000000000#64⟩,
    ⟨"CLEAR",     0xFFFFFFFFFFFFFFFF#64, 0x0500000000000000#64⟩,
    ⟨"BEGIN",     0xFFFFFFFFFFFFFFFF#64, 0x0600000000000000#64⟩,
    ⟨"ISDONE",    0xFFFFFFFFFFFFFFFF#64, 0x0700000000000000#64⟩,
    ⟨"REFRESH",   0xFFFFFFFFFFFFFFFF#64, 0x0800000000000000#64⟩,
    ⟨"PACK",      0xFFFFFFFFFF000000#64, 0x0900000000000000#64⟩,
    ⟨"PEEK",      0xFFFF0000FFFFFFFF#64, 0x0A00000000000000#64⟩ ]

/-- The mnemonic of an operation (R64; R66 for TICK). -/
def Instr.mnemonic : Instr → String
  | .construct _ => "CONSTRUCT"
  | .init => "INIT"
  | .setColor _ _ => "SETCOLOR"
  | .getColor _ => "GETCOLOR"
  | .clear => "CLEAR"
  | .beginTransfer => "BEGIN"
  | .isDone => "ISDONE"
  | .refresh => "REFRESH"
  | .pack _ _ _ => "PACK"
  | .peek _ => "PEEK"
  | .tick => "TICK"

/-- How the host's numbering of a table row reads as a stimulus: TICK's row is one bit wide (one whole byte) and its
encoding is the single bit 1 (R66); everything else is a command word. Log 12. -/
def tableStimulus (nbits w : Nat) : Stimulus :=
  if nbits ≤ 8 && w == 1 then .pulse else .command (BitVec.ofNat 64 w)

/-- The operation the decoder reads from an instruction numbered as opcode_table.json numbers it. -/
def decodeTableWord (nbits w : Nat) : Option Instr :=
  (decode (tableStimulus nbits w)).toOption

end Sys2Proof
end

