-- ==== Sys2Proof/Config.lean ====
section
/-! DEFINITION. The parameters of spec/00_scope.md R9 that some rule reads, and the free byte of R12's `draw`.

The parameters no rule reads, or that R9 fixes at a default which shapes the code rather than a value, have no
constant here: BEGIN_VARIANT = guarded (R92), REFRESH_TIMEOUT = none (D18), INIT_EXTRA_BEGIN = false (D13),
WRITE_ORDER = ascending (D14), BIT_ORDER and BYTE_TIME (unread). DESIGN CHOICE, log 9. -/

namespace Sys2Proof.Config

/-- NMAX, the largest LED count (R9, D4): L is then at most 32767. -/
def nmax : Nat := 10921

/-- IDLE, the idle sentinel of the cursor, -1 (R9, R25, D3). -/
def idle : CursorWord := 0xFFFF#16

/-- FILLER, the byte emitted on a timing event while Idle (R9, R91). -/
def filler : Byte := 0x00#8

/-- CLAMP_AT, the smallest colour value that is clamped (R9, R81). -/
def clampAt : Value := 0x00FFFFFF#32

/-- CLAMP_TO, the value a clamped colour becomes (R9, R81). -/
def clampTo : Value := 0x00FFFFFE#32

/-- LATCH, the four trailing bytes at buffer indices 3N to 3N+3 (R9, R41). -/
def latch : List Byte := [0x7F#8, 0xFF#8, 0xFF#8, 0x80#8]

/-- `draw(8)` of R12: a byte that no rule constrains, numbered by a counter of State.
It has no body on purpose: nothing can be proved about its value. DESIGN CHOICE, log 4. -/
opaque draw : Nat → Byte

end Sys2Proof.Config
end

