-- ==== Sys2Proof/Machine/State.lean ====
section
/-! DEFINITION. The state of the block (spec/10_state.md R20), the reasons a run stops, and the state after
power-on reset (R34). -/

namespace Sys2Proof.Machine

/-- The Strip Buffer's contents: (index, byte) pairs, indices strictly rising. An unlisted index has no value: it
names a byte that does not exist. DESIGN CHOICE, log 8. -/
abbrev Memory := List Host.Cell

/-- The host sequencer (R20, R29): the operation that is running, its operands and its next micro-step. -/
inductive Sequencer where
  /-- No operation running. -/
  | idle
  /-- SETCOLOR on an accepted slot with a clamped colour; the next micro-step writes byte `next` of the slot. -/
  | setColor (slot : Nat) (colour : Value) (next : Fin 3)
  /-- CLEAR; the next micro-step zeroes index `next`, or is the begin step when `next` is 3N. -/
  | clear (next : Nat)
  /-- INIT after `en <- 1`; its remaining micro-steps are those of CLEAR. -/
  | init (next : Nat)
  /-- REFRESH after its begin step; the next micro-step is a poll. -/
  | refresh
deriving DecidableEq, Repr

/-- Who moves next in the run order (spec/20_memory.md R49). DESIGN CHOICE, log 1. -/
inductive Event where
  /-- One timing event (R116). -/
  | tick
  /-- HOST takes its next micro-step. -/
  | host
  /-- The power-on reset input is asserted (R33, R130). -/
  | reset
deriving DecidableEq, Repr

/-- The complete state of the block (R20) and, after `seq`, the model's own four fields (INVENTORY.md, State). -/
structure State where
  /-- `exists`: a Strip Buffer exists (R21). -/
  bufExists : Bool
  /-- `en`: the timing-event handler is enabled (R22). -/
  en : Bool
  /-- `N`: the LED count (R23). -/
  ledCount : BitVec 16
  /-- `buf`: the Strip Buffer (R24). -/
  buf : Memory
  /-- `cur`: the Transfer Cursor (R25). -/
  cur : CursorWord
  /-- `out`: the output register (R27). -/
  out : Byte
  /-- `trace`: every byte emitted so far, oldest first (R28). -/
  trace : List Byte
  /-- The host sequencer (R29). -/
  seq : Sequencer
  /-- The values handed back to HOST so far, oldest first (R8). Log 7. -/
  returned : List Value
  /-- How many free bytes `draw` has given (R12). Log 4. -/
  draws : Nat
  /-- The command words HOST will still issue, in order. Log 2. -/
  program : List Command
  /-- Who moves next; when the list is empty no timing event comes any more and HOST moves. Log 1. -/
  events : List Event
deriving DecidableEq, Repr

/-- The machine's faults. The block itself raises none (R110). -/
inductive Fault where
  /-- Raised by `State.readThen` and `State.memWrite` for an index that names no byte of the buffer (R12: defined
  only for 0 <= a < L). Safe: no state that meets the invariant `Legal` reaches it. -/
  | noSuchByte (index : Nat)
deriving DecidableEq, Repr

/-- The situations the spec gives no meaning, its `refuse` (spec/00_scope.md R12, spec/60_exceptions.md R115). -/
inductive Refusal where
  /-- Raised by an arm of `exec` that has no meaning yet. Safe. No arm raises it now. -/
  | notModelled (mnemonic : String)
  /-- Raised by every host operation but CONSTRUCT and PACK while no buffer exists (R115, D9). Safe. -/
  | noStripBuffer
  /-- Raised by CONSTRUCT with a count outside 0 to NMAX while no buffer exists (R80, D10). Safe. -/
  | ledCountOutOfRange
  /-- Raised by INIT while the handler is enabled (R100, D13). Safe. -/
  | alreadyInitialised
  /-- Raised by PEEK with an index outside [0, L) (R102, D21). Safe. -/
  | peekOutsideBuffer
  /-- Raised by `hostTurn` on a command word that decodes to no operation (R67, D8). Safe. -/
  | invalidCommandWord (reason : Reject)
deriving DecidableEq, Repr

/-- How a meaning ends. -/
abbrev Result := Host.Outcome State Fault Refusal

/-- The state after power-on reset (R34, power-on column; R131). `ledCount` has no value there and is 0 by
DESIGN CHOICE (log 5); `returned`, `draws`, `program` and `events` are the model's own (logs 7, 4, 2, 1). -/
def State.reset : State where
  bufExists := false
  en := false
  ledCount := 0#16
  buf := []
  cur := Config.idle
  out := 0x00#8
  trace := []
  seq := .idle
  returned := []
  draws := 0
  program := []
  events := []

end Sys2Proof.Machine
end

