-- ==== Sys2Proof/Machine/Flags.lean ====
section
/-! DEFINITION. The condition flags of the block: the handshake bit H and what is derived from it
(spec/10_state.md R26). There are no arithmetic flags. -/

namespace Sys2Proof.Machine

/-- H, the handshake bit: the sign bit of the cursor, `cur[15]` (R26). -/
def State.handshake (s : State) : Bool := s.cur.getLsbD 15

/-- Idle: `cur < 0` (R26, R90). -/
def State.isIdle (s : State) : Bool := s.handshake

/-- Active: `cur >= 0` (R26, R90). -/
def State.isActive (s : State) : Bool := !s.handshake

end Sys2Proof.Machine
end

