-- ==== Sys2Proof/Machine/Operands.lean ====
section
/-! DEFINITION. The operand forms: the bounds checks of spec/40_frame_buffer.md R81 and spec/42_external.md R102,
the clamp, a slot's addresses, and a colour's bytes (R42, R81, R82, R101). -/

namespace Sys2Proof.Machine

/-- `N` as a number (R23). -/
def State.leds (s : State) : Nat := s.ledCount.toNat

/-- `L = 4 + 3*N`, the buffer length (R23). -/
def State.len (s : State) : Nat := 4 + 3 * s.leds

/-- The bounds check of SETCOLOR and GETCOLOR: the slot an index names, none when `i < 0 or i >= N` (R81, R111). -/
def State.slotOf (s : State) (index : Int) : Option Nat :=
  if index < 0 ∨ (s.leds : Int) ≤ index then none else some index.toNat

/-- The range check of PEEK: the buffer index, none when `a < 0 or a >= L` (R102). -/
def State.bufIndexOf (s : State) (index : Int) : Option Nat :=
  if index < 0 ∨ (s.len : Int) ≤ index then none else some index.toNat

/-- The count CONSTRUCT accepts: none when `n < 0 or n > NMAX` (R80). -/
def countOf (count : Int) : Option Nat :=
  if count < 0 ∨ (Config.nmax : Int) < count then none else some count.toNat

/-- The clamp: every value from 0xFFFFFF on becomes 0xFFFFFE, compared unsigned on 32 bits (R81, R112). -/
def clampColour (c : Value) : Value :=
  if Config.clampAt.toNat ≤ c.toNat then Config.clampTo else c

/-- The buffer index of byte `k` of a slot: `3*i + k` (R41). -/
def slotAddr (slot : Nat) (k : Fin 3) : Nat := 3 * slot + k.val

/-- Byte `k` of a colour as it stands in its slot: byte0 = v[23:16], byte1 = v[15:8], byte2 = v[7:0] (R42). -/
def colourByte (v : Value) : Fin 3 → Byte
  | 0 => v.extractLsb' 16 8
  | 1 => v.extractLsb' 8 8
  | 2 => v.extractLsb' 0 8

/-- `zext_32(g ++ b ++ r)`: the packing order, green high, blue middle, red low (R82, R101). -/
def packGBR (green blue red : Byte) : Value :=
  ((green ++ blue) ++ red).setWidth 32

end Sys2Proof.Machine
end

