-- ==== Sys2Proof/Machine/Ops.lean ====
section
/-! DEFINITION. The named operations over the buffer, the cursor, the output and the host sequencer that every meaning
is written with, the one asynchronous event's entry, and the order of moves. -/

namespace Sys2Proof.Machine

/-! ## The buffer as data -/

/-- The byte listed at an index, if there is one. -/
def Memory.read : Memory → Nat → Option Byte
  | [], _ => none
  | (b, v) :: rest, a => if a = b then some v else Memory.read rest a

/-- Put a byte at an index, keeping indices strictly rising. -/
def Memory.write : Memory → Nat → Byte → Memory
  | [], a, v => [(a, v)]
  | (b, w) :: rest, a, v =>
    if a < b then (a, v) :: (b, w) :: rest
    else if a = b then (a, v) :: rest
    else (b, w) :: Memory.write rest a v

/-- The canonical form: indices strictly rising (an unlisted index has no value, so no entry can equal one). -/
def Memory.wf : Memory → Bool
  | [] => true
  | [_] => true
  | (a, _) :: (b, w) :: rest => decide (a < b) && Memory.wf ((b, w) :: rest)

/-- The pairs `(base, v0), (base + 1, v1), ...` for the bytes of a list. -/
def Memory.place (base : Nat) : List Byte → Memory
  | [] => []
  | v :: rest => (base, v) :: Memory.place (base + 1) rest

/-- The buffer CONSTRUCT makes for `n` LEDs: 3n free bytes, numbered from `firstDraw`, then the latch bytes (R80). -/
def Memory.fresh (n firstDraw : Nat) : Memory :=
  Memory.place 0 ((List.range (3 * n)).map (fun a => Config.draw (firstDraw + a)) ++ Config.latch)

/-! ## One field at a time -/

/-- Replace the buffer. -/
def State.setBuf (s : State) (m : Memory) : State := { s with buf := m }

/-- `cur <- v`. -/
def State.setCur (s : State) (v : CursorWord) : State := { s with cur := v }

/-- Move the host sequencer. -/
def State.setSeq (s : State) (q : Sequencer) : State := { s with seq := q }

/-- `en <- 1` (R22). -/
def State.enable (s : State) : State := { s with en := true }

/-- `emit(b)`: load the output register and append to the trace (R12, R27, R28). -/
def State.emit (s : State) (b : Byte) : State := { s with out := b, trace := s.trace ++ [b] }

/-- `return v`: hand a value back to HOST (R12, R65). No state of R20 changes. -/
def State.give (s : State) (v : Value) : State := { s with returned := s.returned ++ [v] }

/-- The rest of the run order after a move. -/
def State.setEvents (s : State) (es : List Event) : State := { s with events := es }

/-- The rest of HOST's program after a command word is taken. -/
def State.setProgram (s : State) (ws : List Command) : State := { s with program := ws }

/-! ## Shared operations -/

/-- Go on with the next state, or stop as the first part stopped. -/
def thenDo (r : Result) (f : State → Result) : Result :=
  match r with
  | .next s => f s
  | .fault e => .fault e
  | .refused e => .refused e

/-- `MemRead(a, 1)`: the byte at an index of the existing buffer (R12). -/
def State.memRead (s : State) (a : Nat) : Option Byte :=
  if s.bufExists && decide (a < s.len) then Memory.read s.buf a else none

/-- Read a byte and go on with it; a fault where R12 leaves the read undefined. -/
def State.readThen (s : State) (a : Nat) (f : Byte → Result) : Result :=
  match s.memRead a with
  | some b => f b
  | none => .fault (.noSuchByte a)

/-- `MemWrite(a, 1, v)` (R12); a fault where R12 leaves the write undefined. -/
def State.memWrite (s : State) (a : Nat) (v : Byte) : Result :=
  if s.bufExists && decide (a < s.len) then .next (s.setBuf (Memory.write s.buf a v))
  else .fault (.noSuchByte a)

/-- Every operation but CONSTRUCT and PACK is refused while no buffer exists, before any other test
(R115, R117, D29). -/
def State.needBuffer (s : State) (r : Result) : Result :=
  if s.bufExists then r else .refused .noStripBuffer

/-- The begin step, test and write in one (R52, R92): `if cur < 0 then cur <- 0`. A request while Active is ignored
and not remembered (R113). -/
def State.beginStep (s : State) : State :=
  if s.isIdle then s.setCur 0#16 else s

/-- The cursor's move after the byte at it is emitted: one on, or IDLE when that reaches L (R25, R91). -/
def State.advance (s : State) : State :=
  let next := s.cur + 1#16
  s.setCur (if next.toNat = s.len then Config.idle else next)

/-- The entry of the one asynchronous event (R116, R118): nothing while `en` is 0, else the handler at once. Entry
saves nothing and return restores nothing (R118, R119), so this one gate is the whole of it. -/
def State.takeTimingEvent (s : State) (handler : State → Result) : Result :=
  if s.en then handler s else .next s

/-- The handler: emit one byte, the filler while Idle, the byte at the cursor while Active (R91). -/
def State.emitOneByte (s : State) : Result :=
  if s.isIdle then .next (s.emit Config.filler)
  else s.readThen s.cur.toNat (fun b => .next (s.emit b).advance)

/-- One poll of REFRESH, the same test as ISDONE (R94, R95): HOST is free when it sees Idle and polls again
otherwise. -/
def State.poll (s : State) : State :=
  if s.isIdle then s.setSeq .idle else s.setSeq .refresh

/-- One byte write of SETCOLOR (R81): byte `k` of the slot, ascending (D14); HOST is free after byte 2. -/
def State.writeSlotByte (s : State) (slot : Nat) (colour : Value) : Fin 3 → Result
  | 0 => thenDo (s.memWrite (slotAddr slot 0) (colourByte colour 0)) fun t => .next (t.setSeq (.setColor slot colour 1))
  | 1 => thenDo (s.memWrite (slotAddr slot 1) (colourByte colour 1)) fun t => .next (t.setSeq (.setColor slot colour 2))
  | 2 => thenDo (s.memWrite (slotAddr slot 2) (colourByte colour 2)) fun t => .next (t.setSeq .idle)

/-- One micro-step of CLEAR, or of INIT's clear (R83, R100): zero index `k` and name the following micro-step by
`running`, or, when every LED byte is done, the begin step, after which HOST is free. -/
def State.clearByte (s : State) (running : Nat → Sequencer) (k : Nat) : Result :=
  if k < 3 * s.leds then
    thenDo (s.memWrite k 0x00#8) fun t => .next (t.setSeq (running (k + 1)))
  else .next (s.beginStep.setSeq .idle)

/-! ## The order of moves -/

/-- Who moves next and the state with that move taken from the list; with no event listed the environment has
stopped and HOST moves (R7, R49). -/
def State.takeTurn (s : State) : Event × State :=
  match s.events with
  | [] => (.host, s)
  | e :: rest => (e, s.setEvents rest)

/-- The next command word HOST presents, if it has one (R33, R122). -/
def State.fetch (s : State) : Option (Command × State) :=
  match s.program with
  | [] => none
  | w :: rest => some (w, s.setProgram rest)

/-- What the power-on reset input does (R130): every element of the block at its power-on value. The outside keeps
what it is going to do, and the free bytes go on being fresh. Log 6. -/
def State.powerOn (s : State) : State :=
  { State.reset with draws := s.draws, program := s.program, events := s.events }

end Sys2Proof.Machine
end

