-- ==== Sys2Proof/Machine/External.lean ====
section
/-! DEFINITION. The external interface operations INIT, PACK, PEEK (spec/42_external.md R100 to R102). -/

namespace Sys2Proof.Machine

/-- INIT's first micro-step (R100): `en <- 1`; refused when the handler is enabled (D13). The steps of CLEAR that
follow are the sequencer's. Pins and peripheral are outside the block. -/
def execInit (s : State) : Result :=
  s.needBuffer <|
    if s.en then .refused .alreadyInitialised
    else .next (s.enable.setSeq (.init 0))

/-- PACK (R101): a pure function, allowed before CONSTRUCT. -/
def execPack (red green blue : Byte) (s : State) : Result :=
  .next (s.give (packGBR green blue red))

/-- PEEK (R102): one raw byte, zero-extended; refused outside [0, L) (D21). -/
def execPeek (index : Int) (s : State) : Result :=
  s.needBuffer <|
    match s.bufIndexOf index with
    | none => .refused .peekOutsideBuffer
    | some a => s.readThen a fun b => .next (s.give (b.setWidth 32))

end Sys2Proof.Machine
end

