-- ==== Sys2Proof/Machine/FrameBuffer.lean ====
section
/-! DEFINITION. The Frame Buffer Manager's operations CONSTRUCT, SETCOLOR, GETCOLOR, CLEAR
(spec/40_frame_buffer.md R80 to R83). -/

namespace Sys2Proof.Machine

/-- The state after an accepted CONSTRUCT of `n` LEDs (R80, R132). -/
def State.construct (s : State) (n : Nat) : State :=
  { s with
    bufExists := true
    ledCount := BitVec.ofNat 16 n
    buf := Memory.fresh n s.draws
    cur := Config.idle
    draws := s.draws + 3 * n }

/-- CONSTRUCT (R80): ignored when a buffer exists, whatever the operand (D30); refused outside 0 to NMAX (D10). -/
def execConstruct (count : Int) (s : State) : Result :=
  if s.bufExists then .next s
  else match countOf count with
    | none => .refused .ledCountOutOfRange
    | some n => .next (s.construct n)

/-- SETCOLOR's first micro-step (R81): the bounds check (EC-a), the clamp (EC-b), the write of byte0. The other two
writes are the sequencer's. -/
def execSetColor (index : Int) (colour : Value) (s : State) : Result :=
  s.needBuffer <|
    match s.slotOf index with
    | none => .next s
    | some slot => s.writeSlotByte slot (clampColour colour) 0

/-- GETCOLOR (R82): green is byte0, blue byte1, red byte2; 0 out of range. -/
def execGetColor (index : Int) (s : State) : Result :=
  s.needBuffer <|
    match s.slotOf index with
    | none => .next (s.give 0#32)
    | some slot =>
      s.readThen (slotAddr slot 0) fun green =>
      s.readThen (slotAddr slot 1) fun blue =>
      s.readThen (slotAddr slot 2) fun red =>
      .next (s.give (packGBR green blue red))

/-- CLEAR's first micro-step (R83): the write of index 0, or with no LED the begin step. -/
def execClear (s : State) : Result :=
  s.needBuffer (s.clearByte .clear 0)

end Sys2Proof.Machine
end

