-- ==== Sys2Proof/Machine/TransferEngine.lean ====
section
/-! DEFINITION. The Transfer Engine: the step TICK and the operations BEGIN, ISDONE, REFRESH
(spec/41_transfer_engine.md R91 to R95). -/

namespace Sys2Proof.Machine

/-- TICK (R91): one timing event. -/
def execTick (s : State) : Result :=
  s.takeTimingEvent State.emitOneByte

/-- BEGIN (R92), the guarded variant only (R93). -/
def execBegin (s : State) : Result :=
  s.needBuffer (.next s.beginStep)

/-- ISDONE (R94): 1 when Idle, else 0, as a 32-bit value (R65). -/
def execIsDone (s : State) : Result :=
  s.needBuffer (.next (s.give (if s.isIdle then 1#32 else 0#32)))

/-- REFRESH's begin micro-step (R95). The polls are the sequencer's. -/
def execRefresh (s : State) : Result :=
  s.needBuffer (.next (s.beginStep.setSeq .refresh))

end Sys2Proof.Machine
end

