-- ==== Sys2Proof/Machine/Dispatch.lean ====
section
/-! DEFINITION. One arm per operation: what it does to the state. -/

namespace Sys2Proof.Machine

def exec (i : Instr) (s : State) : Host.Outcome State Fault Refusal :=
  match i with
  -- spec/40_frame_buffer.md
  | .construct count => Sys2Proof.Machine.execConstruct count s
  | .setColor index colour => Sys2Proof.Machine.execSetColor index colour s
  | .getColor index => Sys2Proof.Machine.execGetColor index s
  | .clear => Sys2Proof.Machine.execClear s
  -- spec/41_transfer_engine.md
  | .tick => Sys2Proof.Machine.execTick s
  | .beginTransfer => Sys2Proof.Machine.execBegin s
  | .isDone => Sys2Proof.Machine.execIsDone s
  | .refresh => Sys2Proof.Machine.execRefresh s
  -- spec/42_external.md
  | .init => Sys2Proof.Machine.execInit s
  | .pack red green blue => Sys2Proof.Machine.execPack red green blue s
  | .peek index => Sys2Proof.Machine.execPeek index s

end Sys2Proof.Machine
end

