-- ==== Sys2Proof/Machine/Ports.lean ====
section
/-! DEFINITION. The output ports of spec/10_state.md R33 as functions of one state, or of the states before and after
a step. R33 is informative (D2); `out` is the field of that name. Log 10. -/

namespace Sys2Proof.Machine

/-- `cmd_ready`: the host sequencer is free. -/
def State.cmdReady (s : State) : Bool := decide (s.seq = .idle)

/-- `idle`: the handshake bit H. -/
def State.idlePort (s : State) : Bool := s.handshake

/-- `emit`: pulses with every load of `out`. -/
def State.emitPulse (before after : State) : Bool := decide (before.trace.length < after.trace.length)

/-- `rsp_valid` and `rsp`: the value a step hands back, if it hands one back. -/
def State.response (before after : State) : Option Value := after.returned[before.returned.length]?

end Sys2Proof.Machine
end

