-- ==== Sys2Proof/Machine/Sequencer.lean ====
section
/-! DEFINITION. The micro-steps of the host sequencer after the first one of an operation
(spec/10_state.md R29, spec/30_encoding.md R71). -/

namespace Sys2Proof.Machine

/-- HOST's next micro-step inside the operation that is running. -/
def microStep (s : State) : Result :=
  match s.seq with
  | .idle => .next s
  | .setColor slot colour next => s.writeSlotByte slot colour next
  | .clear next => s.clearByte .clear next
  | .init next => s.clearByte .init next
  | .refresh => .next s.poll

end Sys2Proof.Machine
end

