-- ==== Sys2Proof/Machine/Turn.lean ====
section
/-! DEFINITION. HOST's turn: the next micro-step of the running operation, or the next command word (spec/10_state.md
R29, R33, spec/60_exceptions.md R122). -/

namespace Sys2Proof.Machine

/-- HOST's turn: inside a running operation its next micro-step; else the next command word, decoded and performed;
an invalid word is refused (R67); with no command word left HOST does nothing (log 3). -/
def hostTurn (s : State) : Result :=
  if s.cmdReady then
    match s.fetch with
    | none => .next s
    | some (w, t) =>
      match decode (.command w) with
      | .ok i => exec i t
      | .error reason => .refused (.invalidCommandWord reason)
  else microStep s

end Sys2Proof.Machine
end

