-- ==== Sys2Proof/Machine/Step.lean ====
section
/-! DEFINITION. One step of the machine: one element of the run order of spec/20_memory.md R49, that is one HOST
micro-step, one timing event, or an assertion of the reset input. -/

namespace Sys2Proof.Machine

/-- One step. -/
def step (s : State) : Host.Outcome State Fault Refusal :=
  match s.takeTurn with
  | (.tick, t) => exec .tick t
  | (.reset, t) => .next t.powerOn
  | (.host, t) => hostTurn t

/-- `s` with one instruction placed where the next step takes it: a timing event next in the run order, or a command
word first in HOST's program, HOST free and next to move. Log 2, log 12. -/
def State.withFetchWord (s : State) (nbits w : Nat) : State :=
  match tableStimulus nbits w with
  | .pulse => { s with events := .tick :: s.events }
  | .command c => { s with seq := .idle, program := c :: s.program, events := .host :: s.events }

end Sys2Proof.Machine
end

