-- ==== Sys2Proof/Safety.lean ====
section
/-! DEFINITION. The terms in which claims speak of the machine: the legal states (spec/10_state.md R32), the LED and
latch regions, schedules, and runs of several steps. -/

namespace Sys2Proof.Machine

/-- The sequencer is in a position that its operation reaches (R29). -/
def Sequencer.legal (s : State) : Sequencer → Prop
  | .idle => True
  | .setColor slot colour _ =>
    s.bufExists = true ∧ slot < s.leds ∧ colour.toNat ≤ Config.clampTo.toNat
  | .clear next => s.bufExists = true ∧ next ≤ 3 * s.leds
  | .init next => s.bufExists = true ∧ s.en = true ∧ next ≤ 3 * s.leds
  | .refresh => s.bufExists = true

/-- Index `a` of the buffer holds byte `b`. -/
def State.holds (s : State) (a : Nat) (b : Byte) : Prop := s.memRead a = some b

/-- The latch region holds the latch bytes (R41, INV3). -/
def State.latched (s : State) : Prop :=
  s.holds (3 * s.leds) 0x7F#8 ∧ s.holds (3 * s.leds + 1) 0xFF#8 ∧
  s.holds (3 * s.leds + 2) 0xFF#8 ∧ s.holds (3 * s.leds + 3) 0x80#8

/-- Every LED byte is zero: the zero colour in every slot (R83). -/
def State.dark (s : State) : Prop := ∀ a, a < 3 * s.leds → s.holds a 0x00#8

/-- The legal states: R32's INV1 to INV3 and INV6, the canonical form of the buffer, the range of N (R31), and the
sequencer's positions. Every step keeps them and the reset state meets them; both are statements. -/
structure Legal (s : State) : Prop where
  /-- Before CONSTRUCT there is no buffer, the handler is off, the cursor is idle, and no operation runs (INV1, R131). -/
  absent : s.bufExists = false → s.buf = [] ∧ s.en = false ∧ s.cur = Config.idle ∧ s.seq = .idle
  /-- The buffer is in canonical form. -/
  canonical : Memory.wf s.buf = true
  /-- The indices of the buffer are 0 to L-1 (R40). -/
  indices : s.bufExists = true → s.buf.map Prod.fst = List.range s.len
  /-- N is at most NMAX (R31). -/
  count : s.leds ≤ Config.nmax
  /-- INV3. -/
  latch : s.bufExists = true → s.latched
  /-- INV2: the cursor is IDLE or an index of the buffer. -/
  cursor : s.cur = Config.idle ∨ s.cur.toNat < s.len
  /-- Nothing is emitted while the handler is off (R22, R34). -/
  silent : s.en = false → s.trace = [] ∧ s.out = 0x00#8
  /-- INV6: the output register holds the last byte emitted. -/
  output : s.trace ≠ [] → s.trace.getLast? = some s.out
  /-- The sequencer is in a position its operation reaches. -/
  sequencer : s.seq.legal s

/-- HOST may present a command word: the sequencer is free and HOST has the next move. -/
def State.hostReady (s : State) : Prop :=
  s.seq = .idle ∧ (s.events = [] ∨ ∃ rest, s.events = .host :: rest)

/-- The schedule says that the next move is no assertion of the reset input. -/
def State.noReset (s : State) : Prop := ∀ rest, s.events ≠ .reset :: rest

/-- A stretch of the run order without an assertion of the reset input. -/
abbrev quiet (es : List Event) : Prop := .reset ∉ es

/-- The buffer's bytes, index 0 first: in a legal state byte `a` of this list is the byte at index `a`. -/
def State.content (s : State) : List Byte := s.buf.map Prod.snd

/-- HOST is between operations and the next command word it will issue is that of `i`, with `ws` after it. -/
def State.issues (s : State) (i : Instr) (ws : List Command) : Prop :=
  s.seq = .idle ∧ ∃ w, encode i = .command w ∧ s.program = w :: ws

/-- The words R67 calls invalid: an unassigned `op`, a `zero` field that is not zero, or an operand field that is not
zero where R62 says must be zero. -/
def reservedWord (w : Command) : Prop :=
  opField w = 0x00#8 ∨ 0x0B ≤ (opField w).toNat ∨ zeroField w ≠ 0#8 ∨
  ((opField w).toNat ∉ [0x01, 0x03, 0x04, 0x0A] ∧ indexField w ≠ 0#16) ∨
  ((opField w).toNat ∉ [0x03, 0x09] ∧ dataField w ≠ 0#32) ∨
  ((opField w).toNat = 0x09 ∧ (dataField w).extractLsb' 24 8 ≠ 0#8)

/-- `k` steps of the machine, stopping where a step stops. -/
def runSteps : Nat → State → Result
  | 0, s => .next s
  | k + 1, s => thenDo (step s) (runSteps k)

end Sys2Proof.Machine
end

