-- ==== Sys2Proof/Certificates/Slice0/Obligations.lean ====
section
/-! DEFINITION. The statements about the block, for the provers. Every statement holds for every value of the free
bytes and of the model's own fields. -/

open Sys2Proof Sys2Proof.Machine

/-- For every well-formed operation, at every operand value its fields admit, decoding its encoding (command word,
or pulse for TICK) answers exactly that operation. The binary level is the spec's own decision D7. (Derived from
30_encoding.md R61, R62, R63, R64, R70.) -/
def Obligations.EncodedInstructionDecodesToItself : Prop :=
  ∀ i : Instr, i.wellFormed = true → decode (encode i) = .ok i

/-- If a stimulus decodes to an operation, that operation is well formed and its encoding is that stimulus, so no
bit of a valid word is ignored and two words never mean the same operation. (Derived from 30_encoding.md R64, R67.)
-/
def Obligations.DecodedStimulusEncodesToItself : Prop :=
  ∀ (p : Stimulus) (i : Instr), decode p = .ok i → i.wellFormed = true ∧ encode i = p

/-- For every 64-bit word and every row of the opcode map, the word masked with the row's mask equals the row's
match value exactly when the word decodes to an operation with that row's mnemonic. The numbers are the spec's own
decision D7. (Derived from 30_encoding.md R64.) -/
def Obligations.DecoderFollowsTheOpcodeMap : Prop :=
  ∀ (w : Command) (r : OpcodeRow), r ∈ opcodeMap →
    (w &&& r.mask = r.pattern ↔ ∃ i, decodeCommand w = .ok i ∧ i.mnemonic = r.mnemonic)

/-- A word decodes to some operation exactly when it is not reserved (op 0x00 or from 0x0B on, a non-zero zero
field, a non-zero operand field where R62 says must be zero). When HOST presents a reserved word, the step is
refused as an invalid command word. The refusal is the spec's own decision D8. (Derived from 30_encoding.md R62,
R67.) -/
def Obligations.ReservedWordsAreRefused : Prop :=
  ∀ w : Command,
    ((∃ i, decodeCommand w = .ok i) ↔ ¬ reservedWord w) ∧
    (reservedWord w → ∀ (s : State) (ws : List Command), s.hostReady → s.program = w :: ws →
      ∃ reason, step s = .refused (.invalidCommandWord reason))

/-- One word of every row, written out from the field table and the opcode map, decodes to its operation with its
operands; a pulse decodes to TICK. (Derived from 30_encoding.md R61, R62, R64, R66, 95_test_vectors.md V49.) -/
def Obligations.WordsWrittenOutDecode : Prop :=
  decode (.command 0x0100000300000000#64) = .ok (.construct 3) ∧
  decode (.command 0x0200000000000000#64) = .ok .init ∧
  decode (.command 0x0300FFFFFFFFFFFF#64) = .ok (.setColor (-1) 0xFFFFFFFF#32) ∧
  decode (.command 0x0400000100000000#64) = .ok (.getColor 1) ∧
  decode (.command 0x0500000000000000#64) = .ok .clear ∧
  decode (.command 0x0600000000000000#64) = .ok .beginTransfer ∧
  decode (.command 0x0700000000000000#64) = .ok .isDone ∧
  decode (.command 0x0800000000000000#64) = .ok .refresh ∧
  decode (.command 0x0900000000112233#64) = .ok (.pack 0x11#8 0x22#8 0x33#8) ∧
  decode (.command 0x0A00FFFF00000000#64) = .ok (.peek (-1)) ∧
  decode .pulse = .ok .tick

/-- The reset state has no buffer, exists = 0, en = 0, cur = IDLE, H = 1, out = 0x00, an empty trace and HOST
between operations. A timing event there does nothing. Every host operation but CONSTRUCT and PACK is refused for
want of a buffer; CONSTRUCT of 0 to 10921 LEDs and PACK run. The values are the spec's own decision D12. (Derived
from 70_reset_and_hazards.md R131, 10_state.md R34.) -/
def Obligations.ResetLeavesAnEmptyIdleBlock : Prop :=
  State.reset.bufExists = false ∧ State.reset.en = false ∧ State.reset.buf = [] ∧
  State.reset.cur = 0xFFFF#16 ∧ State.reset.handshake = true ∧ State.reset.out = 0x00#8 ∧
  State.reset.trace = [] ∧ State.reset.seq = .idle ∧
  exec .tick State.reset = .next State.reset ∧
  (∀ i : Instr, i ≠ .tick → (∀ n, i ≠ .construct n) → (∀ r g b, i ≠ .pack r g b) →
    exec i State.reset = .refused .noStripBuffer) ∧
  (∀ n : Int, 0 ≤ n → n ≤ 10921 → ∃ t, exec (.construct n) State.reset = .next t ∧ t.bufExists = true) ∧
  (∀ r g b, ∃ t, exec (.pack r g b) State.reset = .next t)

/-- The state after power-on reset meets every clause of the invariant Legal (R32's INV1 to INV3 and INV6, the
canonical buffer, the range of N, the positions of the host sequencer). (Derived from 10_state.md R32, R34.) -/
def Obligations.ResetStateIsLegal : Prop :=
  Legal State.reset

/-- From every state that meets Legal (reached from reset or not), if the step answers a next state, that state
meets Legal: the buffer keeps its canonical form and exactly the indices 0 to L-1, the latch bytes stay, the cursor
is IDLE or an index below L, the output register holds the last byte of the trace, nothing is emitted before INIT,
and the host sequencer stays in a legal position. (Derived from 10_state.md R32, 20_memory.md R41, R47.) -/
def Obligations.StepKeepsTheLegalStates : Prop :=
  ∀ s t : State, Legal s → step s = .next t → Legal t

/-- From every state that meets Legal, no step ends in a fault: every byte the block reads or writes has an index
from 0 to L-1. (Derived from 60_exceptions.md R110, 00_scope.md R12.) -/
def Obligations.LegalStatesNeverFault : Prop :=
  ∀ (s : State) (f : Fault), Legal s → step s ≠ .fault f

/-- When the reset input is the next move, at any point of any operation, the step answers a next state in which
every element of the block, and the record of returned values, is as in the reset state. What the outside will do
next and the numbering of the free bytes go on (the model's choice, log 6). (Derived from 70_reset_and_hazards.md
R130.) -/
def Obligations.ResetInputStartsANewLife : Prop :=
  ∀ (s : State) (es : List Event), s.events = .reset :: es →
    ∃ t, step s = .next t ∧ t.bufExists = false ∧ t.en = false ∧ t.ledCount = State.reset.ledCount ∧ t.buf = [] ∧
      t.cur = Config.idle ∧ t.out = 0x00#8 ∧ t.trace = [] ∧ t.seq = .idle ∧ t.returned = [] ∧
      t.draws = s.draws ∧ t.program = s.program ∧ t.events = es

/-- When the sequencer is free, HOST has the next move, and HOST's next command word decodes to an operation, the
step is exec of that operation on the state with the move and the word taken. The lists events and program are the
model's own (log 1, log 2). (Derived from 60_exceptions.md R122, 10_state.md R33.) -/
def Obligations.StepRunsTheNextCommandWord : Prop :=
  ∀ (s : State) (w : Command) (ws : List Command) (i : Instr),
    s.hostReady → s.program = w :: ws → decode (.command w) = .ok i →
      step s = exec i ((s.setEvents s.events.tail).setProgram ws)

/-- When a timing event is the next move, the step is exec of TICK on the state with that move taken, whatever the
host sequencer holds, and the sequencer and HOST's program are the same afterwards. (Derived from 60_exceptions.md
R118, 10_state.md R29.) -/
def Obligations.StepTakesATimingEventAtAnyPoint : Prop :=
  ∀ (s : State) (es : List Event), s.events = .tick :: es →
    step s = exec .tick (s.setEvents es) ∧
    ∀ t, step s = .next t → t.seq = s.seq ∧ t.program = s.program ∧ t.events = es

/-- When the sequencer holds a running operation and HOST has the next move, the step is that operation's next
micro-step on the state with the move taken. With the sequencer free and no command word left HOST's move changes
nothing else (the model's choice, log 3). (Derived from 10_state.md R29, 60_exceptions.md R122.) -/
def Obligations.StepContinuesTheRunningOperation : Prop :=
  ∀ s : State, (s.events = [] ∨ ∃ es, s.events = .host :: es) →
    (s.seq ≠ .idle → step s = microStep (s.setEvents s.events.tail)) ∧
    (s.seq ≠ .idle → ∀ t, step s = .next t → t.program = s.program) ∧
    (s.seq = .idle → s.program = [] → step s = .next (s.setEvents s.events.tail))

/-- If the decoder reads an operation from a table word, then after withFetchWord places that word the step is exec
of exactly that operation: TICK on the state as it was, a host operation on the state with the sequencer free. How a
word reaches the block is the model's choice (log 2, log 12). (Derived from 30_encoding.md R61, R66, 10_state.md
R33.) -/
def Obligations.PlacedInstructionRunsNext : Prop :=
  ∀ (s : State) (nbits w : Nat) (i : Instr), decodeTableWord nbits w = some i →
    step (s.withFetchWord nbits w) = exec i (if i = .tick then s else s.setSeq .idle)

/-- While no buffer exists, CONSTRUCT n with 0 <= n <= 10921 answers a next state with exists = 1, N = n, L = 4 +
3n, the latch bytes 0x7F, 0xFF, 0xFF, 0x80 at 3n to 3n+3, some byte at every LED index, no byte from L on, and the
cursor IDLE; nothing else changes, and in a legal state the handler is still off and nothing has been emitted. The
range is the spec's own decision D4; the statement holds whatever the free LED bytes are. (Derived from
40_frame_buffer.md R80, 70_reset_and_hazards.md R132.) -/
def Obligations.ConstructCreatesTheBuffer : Prop :=
  ∀ (s : State) (n : Int), s.bufExists = false → 0 ≤ n → n ≤ 10921 →
    ∃ t, exec (.construct n) s = .next t ∧
      t.bufExists = true ∧ (t.leds : Int) = n ∧ (t.len : Int) = 4 + 3 * n ∧ t.latched ∧ t.cur = Config.idle ∧
      (∀ a, a < 3 * t.leds → ∃ b, t.holds a b) ∧ (∀ a, t.len ≤ a → t.memRead a = none) ∧
      Memory.wf t.buf = true ∧
      t = { s with bufExists := t.bufExists, ledCount := t.ledCount, buf := t.buf, cur := t.cur, draws := t.draws } ∧
      (Legal s → t.en = false ∧ t.trace = [])

/-- While a buffer exists CONSTRUCT with any operand leaves the whole state as it is, so the buffer keeps its first
size; an index beyond the first size is then ignored by SETCOLOR, even when it is inside the second size. (States
R143.) -/
def Obligations.SecondConstructIsIgnored : Prop :=
  ∀ (s : State) (n : Int), s.bufExists = true →
    exec (.construct n) s = .next s ∧
    ∀ (i : Int) (c : Value), (s.leds : Int) ≤ i → i < n →
      thenDo (exec (.construct n) s) (exec (.setColor i c)) = .next s

/-- While a buffer exists, SETCOLOR with i < 0 or i >= N and any colour leaves the whole state as it is, and
GETCOLOR with such an index returns 0 and changes nothing else; nothing is recorded. (States R111.) -/
def Obligations.BadIndexIsIgnoredOrReadsZero : Prop :=
  ∀ (s : State) (i : Int) (c : Value), s.bufExists = true → (i < 0 ∨ (s.leds : Int) ≤ i) →
    exec (.setColor i c) s = .next s ∧
    exec (.getColor i) s = .next { s with returned := s.returned ++ [0#32] }

/-- SETCOLOR with a colour c >= 0xFFFFFF does, in every state and for every index, exactly what SETCOLOR with
0xFFFFFE does; a colour below 0xFFFFFF is written as it is: in an accepted slot the first byte written is bits 23:16
of it and the sequencer holds it for the other two bytes. The clamp is R112's; which byte is written first is R81's
and rests on the spec's own decision D14 (log 9). (Derived from 60_exceptions.md R112, 40_frame_buffer.md R81.) -/
def Obligations.ReservedColourIsClamped : Prop :=
  (∀ (s : State) (i : Int) (c : Value), 0xFFFFFF ≤ c.toNat →
    exec (.setColor i c) s = exec (.setColor i 0x00FFFFFE#32) s) ∧
  (∀ (s : State) (i : Int) (c : Value), c.toNat < 0xFFFFFF → s.bufExists = true → 0 ≤ i → i < s.leds →
    ∃ t, exec (.setColor i c) s = .next t ∧ t.seq = .setColor i.toNat c 1 ∧
      t.holds (3 * i.toNat) (c.extractLsb' 16 8))

/-- Each byte write of SETCOLOR puts v[23:16] at 3i, v[15:8] at 3i+1, v[7:0] at 3i+2 and leaves every other byte and
every other element (but the sequencer) as it is; GETCOLOR of a slot that holds the three bytes of a 24-bit value
returns that value; of a value packed by PACK, byte0 is green, byte1 blue, byte2 red. Which byte places are written
is R42's; that byte k+1 follows byte k, and that nothing else changes, is R81's, the order by the spec's own
decision D14 (log 9). No run reaches the sequencer position of byte0: that write is the first micro-step of SETCOLOR
itself (SetColorBeginsWithItsFirstByte). (Derived from 20_memory.md R42, 40_frame_buffer.md R81, R82, 42_external.md
R101.) -/
def Obligations.ColourStandsMostSignificantByteFirst : Prop :=
  (∀ (s : State) (slot : Nat) (v : Value) (k : Fin 3),
    s.bufExists = true → slot < s.leds → s.seq = .setColor slot v k →
    ∃ t, microStep s = .next t ∧
      (∀ a, t.memRead a =
        if a = 3 * slot + k.val then some (BitVec.ofNat 8 (v.toNat / 2 ^ (16 - 8 * k.val))) else s.memRead a) ∧
      t = { s with buf := t.buf, seq := t.seq } ∧
      t.seq = (if k = 2 then .idle else .setColor slot v (k + 1))) ∧
  (∀ (s : State) (i : Int) (v : Value), 0 ≤ i → i < s.leds → v.toNat < 2 ^ 24 →
    s.holds (3 * i.toNat) (BitVec.ofNat 8 (v.toNat / 2 ^ 16)) →
    s.holds (3 * i.toNat + 1) (BitVec.ofNat 8 (v.toNat / 2 ^ 8)) →
    s.holds (3 * i.toNat + 2) (BitVec.ofNat 8 v.toNat) →
    exec (.getColor i) s = .next { s with returned := s.returned ++ [v] }) ∧
  (∀ (s t : State) (r g b : Byte), exec (.pack r g b) s = .next t →
    ∃ v, t.returned = s.returned ++ [v] ∧ colourByte v 0 = g ∧ colourByte v 1 = b ∧ colourByte v 2 = r)

/-- While a buffer exists and 0 <= i < N, SETCOLOR answers a next state in which index 3i holds bits 23:16 of the
clamped colour, every other byte reads as before, the sequencer holds the slot, the clamped colour and byte 1 as the
next write, and every other element is unchanged: the cursor too, so no transfer starts. That byte0 is written first
and byte 1 next is the spec's own decision D14 (log 9). (Derived from 40_frame_buffer.md R81.) -/
def Obligations.SetColorBeginsWithItsFirstByte : Prop :=
  ∀ (s : State) (i : Int) (c : Value), s.bufExists = true → 0 ≤ i → i < s.leds →
    ∃ t, exec (.setColor i c) s = .next t ∧
      (∀ a, t.memRead a =
        if a = slotAddr i.toNat 0 then some (colourByte (clampColour c) 0) else s.memRead a) ∧
      t = { s with buf := t.buf, seq := .setColor i.toNat (clampColour c) 1 }

/-- From a legal state with HOST about to issue SETCOLOR i, c on an accepted slot, take any stretch of the run order
without a reset in which HOST moves three times: the run reaches a next state in which the operation is complete,
the slot holds the three bytes of the clamped colour, every other index reads as before, and exists, en, N, the
returned values and HOST's remaining program are as they should be. Ascending order is the spec's own decision D14.
(Derived from 40_frame_buffer.md R81, 20_memory.md R45, R47.) -/
def Obligations.SetColorStoresItsColourUnderAnySchedule : Prop :=
  ∀ (s : State) (i : Int) (c : Value) (ws : List Command) (es rest : List Event),
    Legal s → s.bufExists = true → s.issues (.setColor i c) ws → 0 ≤ i → i < s.leds →
    s.events = es ++ rest → quiet es → es.count .host = 3 →
    ∃ t, runSteps es.length s = .next t ∧ t.seq = .idle ∧ t.program = ws ∧ t.events = rest ∧
      t.returned = s.returned ∧ t.bufExists = true ∧ t.en = s.en ∧ t.ledCount = s.ledCount ∧
      (∀ k : Fin 3, t.holds (slotAddr i.toNat k) (colourByte (clampColour c) k)) ∧
      (∀ a, (∀ k : Fin 3, a ≠ slotAddr i.toNat k) → t.memRead a = s.memRead a)

/-- From a legal state with HOST about to issue SETCOLOR i, c and then GETCOLOR i on an accepted slot, in any
stretch of the run order without a reset in which HOST moves four times, the run reaches a next state in which
exactly one value has been returned, min(c, 0xFFFFFE). In components: a colour packed from r, g, b comes back as
packed, but 0xFF, 0xFF, 0xFF comes back as PACK(0xFE, 0xFF, 0xFF). (Derived from 40_frame_buffer.md R84.) -/
def Obligations.ColourRoundTripIsTheClamp : Prop :=
  (∀ (s : State) (i : Int) (c : Value) (w : Command) (ws : List Command) (es rest : List Event),
    Legal s → s.bufExists = true → encode (.getColor i) = .command w → s.issues (.setColor i c) (w :: ws) →
    0 ≤ i → i < s.leds → s.events = es ++ rest → quiet es → es.count .host = 4 →
    ∃ t, runSteps es.length s = .next t ∧ t.seq = .idle ∧ t.program = ws ∧ t.events = rest ∧
      t.returned = s.returned ++ [BitVec.ofNat 32 (min c.toNat 0xFFFFFE)]) ∧
  (∀ r g b : Byte,
    clampColour (packGBR g b r) =
      if r = 0xFF#8 ∧ g = 0xFF#8 ∧ b = 0xFF#8 then packGBR 0xFF#8 0xFF#8 0xFE#8 else packGBR g b r)

/-- While a buffer exists and 0 <= i < N, if the slot holds g, b, r, GETCOLOR answers a next state in which only the
record of returned values has grown, by the value g * 65536 + b * 256 + r; in a legal state the slot always holds
three bytes. (Derived from 40_frame_buffer.md R82.) -/
def Obligations.GetColorReturnsThePackedSlot : Prop :=
  ∀ (s : State) (i : Int), s.bufExists = true → 0 ≤ i → i < s.leds →
    (∀ g b r : Byte, s.holds (slotAddr i.toNat 0) g → s.holds (slotAddr i.toNat 1) b →
      s.holds (slotAddr i.toNat 2) r →
      ∃ v : Value, v.toNat = g.toNat * 65536 + b.toNat * 256 + r.toNat ∧
        exec (.getColor i) s = .next { s with returned := s.returned ++ [v] }) ∧
    (Legal s → ∃ t, exec (.getColor i) s = .next t)

/-- While a buffer exists, CLEAR issued in any state does exactly what its micro-step at position 0 does: with an
LED it answers a next state in which index 0 is 0x00, every other byte reads as before and the position is 1; with
none it is the begin step, the cursor becoming 0 if it was Idle and HOST being free. Each later micro-step, from its
position k: for k < 3N index k becomes 0x00, every other byte reads as before and the position becomes k + 1; for k
= 3N the cursor becomes 0 if it was Idle and HOST is free. Nothing else changes in any of them. INIT's clear does
the same from its own positions. Granularity and order are the spec's own decision D14 (log 9). (Derived from
40_frame_buffer.md R83, 30_encoding.md R71.) -/
def Obligations.ClearMovesOneByteAtATime : Prop :=
  ∀ s : State, s.bufExists = true →
    exec .clear s = microStep (s.setSeq (.clear 0)) ∧
    (0 < s.leds → ∃ t, exec .clear s = .next t ∧
      (∀ a, t.memRead a = if a = 0 then some 0x00#8 else s.memRead a) ∧
      t = { s with buf := t.buf, seq := .clear 1 }) ∧
    (s.leds = 0 → exec .clear s = .next { s with cur := if s.isIdle then 0#16 else s.cur, seq := .idle }) ∧
    (∀ (running : Nat → Sequencer) (k : Nat), running = Sequencer.clear ∨ running = Sequencer.init →
      s.seq = running k →
      (k < 3 * s.leds → ∃ t, microStep s = .next t ∧
        (∀ a, t.memRead a = if a = k then some 0x00#8 else s.memRead a) ∧
        t = { s with buf := t.buf, seq := running (k + 1) }) ∧
      (k = 3 * s.leds →
        microStep s = .next { s with cur := if s.isIdle then 0#16 else s.cur, seq := .idle }))

/-- From a legal state with HOST about to issue CLEAR, take any stretch of the run order without a reset in which
HOST moves 3N + 1 times, the last move HOST's: the run reaches a next state in which CLEAR is complete, every LED
byte is 0x00, the latch bytes stand, the engine is Active, and exists, en, N and the returned values are unchanged.
(Derived from 40_frame_buffer.md R83, 20_memory.md R47.) -/
def Obligations.ClearDarkensTheStripUnderAnySchedule : Prop :=
  ∀ (s : State) (ws : List Command) (es rest : List Event),
    Legal s → s.bufExists = true → s.issues .clear ws →
    s.events = es ++ .host :: rest → quiet es → es.count .host = 3 * s.leds →
    ∃ t, runSteps (es.length + 1) s = .next t ∧ t.seq = .idle ∧ t.program = ws ∧ t.events = rest ∧
      t.dark ∧ t.latched ∧ t.isActive = true ∧ t.bufExists = true ∧ t.en = s.en ∧ t.ledCount = s.ledCount ∧
      t.returned = s.returned

/-- While a buffer exists and en = 0, INIT answers the state with en = 1 and the sequencer at the first byte of its
clear, and nothing else changed. While en = 1 it is refused. The preconditions are the spec's own decision D13.
(Derived from 42_external.md R100.) -/
def Obligations.InitEnablesTheHandlerFirst : Prop :=
  ∀ s : State, s.bufExists = true →
    (s.en = false → exec .init s = .next { s with en := true, seq := .init 0 }) ∧
    (s.en = true → exec .init s = .refused .alreadyInitialised)

/-- From a legal state with en = 0 and HOST about to issue INIT, take any stretch of the run order without a reset
in which HOST moves 3N + 2 times, the last move HOST's: the run reaches a next state in which INIT is complete, en =
1, every LED byte is 0x00, the latch bytes stand and the engine is Active; if the engine was Idle before, the cursor
is 0 and every byte emitted inside INIT was the filler 0x00. (Derived from 42_external.md R100.) -/
def Obligations.InitDarkensTheStripUnderAnySchedule : Prop :=
  ∀ (s : State) (ws : List Command) (es rest : List Event),
    Legal s → s.bufExists = true → s.en = false → s.issues .init ws →
    s.events = es ++ .host :: rest → quiet es → es.count .host = 3 * s.leds + 1 →
    ∃ t, runSteps (es.length + 1) s = .next t ∧ t.seq = .idle ∧ t.program = ws ∧ t.events = rest ∧
      t.en = true ∧ t.dark ∧ t.latched ∧ t.isActive = true ∧ t.ledCount = s.ledCount ∧ t.returned = s.returned ∧
      (s.isIdle = true → t.cur = 0#16 ∧ ∀ b ∈ t.trace, b = 0x00#8)

/-- While a buffer exists BEGIN answers the state with cur = 0 when the engine is Idle, whatever en is, and the
state unchanged when it is Active. (Derived from 41_transfer_engine.md R92.) -/
def Obligations.BeginStartsOnlyWhenIdle : Prop :=
  ∀ s : State, s.bufExists = true →
    exec .beginTransfer s = .next (if s.isIdle then { s with cur := 0#16 } else s)

/-- While a buffer exists and the engine is Active, BEGIN leaves the whole state as it is; the begin micro-step of
CLEAR and of INIT only frees HOST and that of REFRESH only starts its polling: the cursor stays and no element
records the request. (States R113.) -/
def Obligations.StartWhileActiveIsIgnored : Prop :=
  ∀ s : State, s.bufExists = true → s.isActive = true →
    exec .beginTransfer s = .next s ∧
    exec .refresh s = .next { s with seq := .refresh } ∧
    (s.seq = .clear (3 * s.leds) ∨ s.seq = .init (3 * s.leds) → microStep s = .next { s with seq := .idle })

/-- While a buffer exists ISDONE answers the state with only the record of returned values grown, by 1 when cur < 0
and by 0 otherwise; without a buffer it is refused; right after an accepted CONSTRUCT it returns 1. (States R94.) -/
def Obligations.IsDoneReportsIdle : Prop :=
  (∀ s : State, s.bufExists = true →
    exec .isDone s = .next { s with returned := s.returned ++ [if s.cur.toInt < 0 then 1#32 else 0#32] }) ∧
  (∀ s : State, s.bufExists = false → exec .isDone s = .refused .noStripBuffer) ∧
  (∀ (s t : State) (n : Int), s.bufExists = false → exec (.construct n) s = .next t →
    exec .isDone t = .next { t with returned := t.returned ++ [1#32] })

/-- While a buffer exists REFRESH answers the state with cur = 0 if it was Idle and the sequencer polling; each poll
frees HOST when the engine is Idle, leaves the state as it is when it is Active, and returns no value. (Derived from
41_transfer_engine.md R95.) -/
def Obligations.RefreshBeginsThenPolls : Prop :=
  ∀ s : State,
    (s.bufExists = true →
      exec .refresh s = .next { s with cur := if s.isIdle then 0#16 else s.cur, seq := .refresh }) ∧
    (s.seq = .refresh → microStep s = .next (if s.isIdle then { s with seq := .idle } else s))

/-- From a legal, enabled, Idle state with HOST about to issue REFRESH, whatever the placement of HOST's polls:
after fewer than L timing events REFRESH still runs, the cursor equals their number, the buffer is unchanged and the
trace has grown by that many of its first bytes; and the first poll after the L-th timing event completes it, with
the whole buffer sent and one filler byte for each later timing event. (Derived from 41_transfer_engine.md R95.) -/
def Obligations.RefreshEndsWithItsTransfer : Prop :=
  ∀ (s : State) (ws : List Command) (es rest : List Event),
    Legal s → s.bufExists = true → s.en = true → s.isIdle = true → s.issues .refresh ws →
    s.events = .host :: (es ++ rest) → quiet es →
    (es.count .tick < s.len →
      ∃ t, runSteps (es.length + 1) s = .next t ∧ t.seq = .refresh ∧ t.isActive = true ∧
        t.cur.toNat = es.count .tick ∧ t.buf = s.buf ∧ t.trace = s.trace ++ s.content.take (es.count .tick)) ∧
    (∀ (before : List Event) (late : Nat) (rest' : List Event),
      es = before ++ .tick :: List.replicate late .tick → rest = .host :: rest' →
      before.count .tick + 1 = s.len →
      ∃ t, runSteps (es.length + 2) s = .next t ∧ t.seq = .idle ∧ t.program = ws ∧ t.events = rest' ∧
        t.cur = Config.idle ∧ t.buf = s.buf ∧
        t.trace = s.trace ++ s.content ++ List.replicate late 0x00#8)

/-- While REFRESH polls with the engine Active: with en = 0 any stretch of the run order without a reset leaves
everything as it is, REFRESH still polling; with en = 0 or 1 so does any number of polls with no timing event, also
when the environment has stopped for good. (Derived from 70_reset_and_hazards.md R139, 60_exceptions.md R114.) -/
def Obligations.RefreshHangsWithoutTimingEvents : Prop :=
  ∀ (s : State) (es rest : List Event), s.seq = .refresh → s.isActive = true →
    (s.en = false → quiet es → s.events = es ++ rest → runSteps es.length s = .next (s.setEvents rest)) ∧
    (∀ k, s.events = List.replicate k .host ++ rest → runSteps k s = .next (s.setEvents rest)) ∧
    (∀ k, s.events = [] → runSteps k s = .next s)

/-- While en = 0 TICK leaves the state as it is. While en = 1 and Idle it loads out with 0x00 and appends 0x00 to
the trace. In a legal state with en = 1 and Active it loads out with the byte at the cursor, appends it, and moves
the cursor one on, or to IDLE when that reaches L. Nothing else changes. (Derived from 41_transfer_engine.md R91,
10_state.md R22.) -/
def Obligations.TickEmitsExactlyOneByte : Prop :=
  ∀ s : State,
    (s.en = false → exec .tick s = .next s) ∧
    (s.en = true → s.isIdle = true → exec .tick s = .next { s with out := 0x00#8, trace := s.trace ++ [0x00#8] }) ∧
    (Legal s → s.en = true → s.isActive = true →
      ∃ b, s.holds s.cur.toNat b ∧
        exec .tick s = .next { s with
          out := b
          trace := s.trace ++ [b]
          cur := if s.cur.toNat + 1 = s.len then 0xFFFF#16 else BitVec.ofNat 16 (s.cur.toNat + 1) })

/-- Whatever the state, a next state of TICK differs from it in cur, out and trace alone, so every byte of the
buffer reads as before; and two states that agree on exists, en, N, buf, cur, out and trace still agree on them
after TICK, whatever HOST's sequencer, program and returned values are. (Derived from 60_exceptions.md R118,
10_state.md R32.) -/
def Obligations.EngineTouchesOnlyCursorOutputAndTrace : Prop :=
  (∀ s t : State, exec .tick s = .next t →
    t = { s with cur := t.cur, out := t.out, trace := t.trace } ∧ ∀ a, t.memRead a = s.memRead a) ∧
  (∀ s t s' : State, exec .tick s = .next t →
    s' = { s with seq := s'.seq, returned := s'.returned, draws := s'.draws, program := s'.program, events := s'.events } →
    ∃ t', exec .tick s' = .next t' ∧ t'.cur = t.cur ∧ t'.out = t.out ∧ t'.trace = t.trace)

/-- From a legal, enabled, Idle state with HOST about to issue BEGIN and then k <= L timing events, the run reaches
a next state in which the trace has grown by the first k bytes of the buffer in index order, the cursor is k, or
IDLE when k = L, the engine is Idle exactly when k = L, and the buffer is unchanged. (Derived from
41_transfer_engine.md R96, 20_memory.md R43.) -/
def Obligations.TransferSendsTheBufferInOrder : Prop :=
  ∀ (s : State) (ws : List Command) (rest : List Event) (k : Nat),
    Legal s → s.bufExists = true → s.en = true → s.isIdle = true → s.issues .beginTransfer ws →
    s.events = .host :: (List.replicate k .tick ++ rest) → k ≤ s.len →
    ∃ t, runSteps (k + 1) s = .next t ∧
      t.trace = s.trace ++ s.content.take k ∧
      t.cur = (if k = s.len then Config.idle else BitVec.ofNat 16 k) ∧
      (t.isIdle = true ↔ k = s.len) ∧
      t.buf = s.buf ∧ s.content.length = s.len ∧ t.seq = .idle ∧ t.program = ws ∧ t.events = rest

/-- From a legal, enabled, Active state take any stretch of the run order without a reset, with any command words of
HOST's in it, that is not refused: while the number of timing events in it is below L minus the cursor, the engine
is still Active, the cursor has moved by exactly that number, and the trace has grown by exactly that many bytes.
One timing event more makes it Idle. (Derived from 41_transfer_engine.md R90, R96, 70_reset_and_hazards.md R146,
10_state.md R32.) -/
def Obligations.NothingDisturbsARunningTransfer : Prop :=
  ∀ (s t : State) (es rest : List Event), Legal s → s.en = true → s.isActive = true →
    s.events = es ++ rest → quiet es → runSteps es.length s = .next t →
    s.cur.toNat + es.count .tick < s.len →
    t.isActive = true ∧ t.cur.toNat = s.cur.toNat + es.count .tick ∧
    t.trace.length = s.trace.length + es.count .tick ∧
    (s.cur.toNat + es.count .tick + 1 = s.len → ∃ u, exec .tick t = .next u ∧ u.isIdle = true)

/-- For every step without a reset that answers a next state: if it is a timing event with en = 1, the trace grows
by exactly one byte, which is loaded into out and is the filler while Idle and the byte at the cursor while Active;
otherwise out and the trace are unchanged. (Derived from 10_state.md R22, R27, R28, 41_transfer_engine.md R97.) -/
def Obligations.OnlyTimingEventsEmit : Prop :=
  ∀ s t : State, s.noReset → step s = .next t →
    (∀ es, s.events = .tick :: es → s.en = true →
      t.trace = s.trace ++ [t.out] ∧
      (s.isIdle = true → t.out = 0x00#8) ∧ (s.isActive = true → s.holds s.cur.toNat t.out)) ∧
    ((∀ es, s.events ≠ .tick :: es) ∨ s.en = false → t.out = s.out ∧ t.trace = s.trace)

/-- For every step without a reset from a legal state: a HOST step while Active leaves the cursor as it is and a
timing event while Idle leaves the cursor as it is; a HOST step that changes the cursor sets it to 0 from Idle, so H
only falls by HOST and only rises by ENGINE. (Derived from 10_state.md R26, R32, 60_exceptions.md R121.) -/
def Obligations.CursorHasOneWriterAtATime : Prop :=
  ∀ s t : State, Legal s → s.noReset → step s = .next t →
    ((∀ es, s.events ≠ .tick :: es) →
      (s.isActive = true → t.cur = s.cur) ∧ (t.cur ≠ s.cur → s.handshake = true ∧ t.cur = 0#16)) ∧
    (∀ es, s.events = .tick :: es →
      (s.isIdle = true → t.cur = s.cur) ∧ (t.handshake ≠ s.handshake → t.handshake = true ∧ t.cur = Config.idle))

/-- For every step without a reset from a legal state in which a buffer exists: exists stays 1, N stays, every index
from 3N on reads as before, en does not fall and the trace does not shrink. (Derived from 10_state.md R32,
20_memory.md R47.) -/
def Obligations.SizeAndLatchBytesAreFixed : Prop :=
  ∀ s t : State, Legal s → s.bufExists = true → s.noReset → step s = .next t →
    t.bufExists = true ∧ t.ledCount = s.ledCount ∧ (s.en = true → t.en = true) ∧
    (∀ a, 3 * s.leds ≤ a → t.memRead a = s.memRead a) ∧ s.trace <+: t.trace

/-- In every state, before CONSTRUCT too, PACK r, g, b answers the state with only the record of returned values
grown, by the 32-bit value g * 65536 + b * 256 + r. (States R101.) -/
def Obligations.PackPutsGreenBlueRed : Prop :=
  ∀ (s : State) (r g b : Byte), ∃ v : Value,
    exec (.pack r g b) s = .next { s with returned := s.returned ++ [v] } ∧
    v.toNat = g.toNat * 65536 + b.toNat * 256 + r.toNat

/-- While a buffer exists: for 0 <= a < L, if index a holds b, PEEK a answers the state with only the record of
returned values grown, by b zero-extended, and in a legal state such a b always exists; for a < 0 or a >= L it is
refused. PEEK is the spec's own decision D21. (Derived from 42_external.md R102.) -/
def Obligations.PeekReadsOneRawByte : Prop :=
  ∀ (s : State) (a : Int), s.bufExists = true →
    (∀ b : Byte, 0 ≤ a → s.holds a.toNat b →
      exec (.peek a) s = .next { s with returned := s.returned ++ [BitVec.ofNat 32 b.toNat] }) ∧
    (Legal s → 0 ≤ a → a < s.len → ∃ t, exec (.peek a) s = .next t) ∧
    (a < 0 ∨ (s.len : Int) ≤ a → exec (.peek a) s = .refused .peekOutsideBuffer)

/-- Whatever the state and the host operation, exec refuses exactly when: no buffer exists and the operation is
neither CONSTRUCT nor PACK; CONSTRUCT has a count outside 0 to 10921 while no buffer exists; INIT finds en = 1; or
PEEK has an index outside [0, L). TICK is never refused. The refusals are the spec's own decisions D9, D10, D13,
D21. (Derived from 60_exceptions.md R115, R117.) -/
def Obligations.UndefinedSituationsAreRefused : Prop :=
  ∀ (s : State) (i : Instr),
    (∃ r, exec i s = .refused r) ↔
      match i with
      | .construct n => s.bufExists = false ∧ (n < 0 ∨ 10921 < n)
      | .pack _ _ _ => False
      | .tick => False
      | .init => s.bufExists = false ∨ s.en = true
      | .peek a => s.bufExists = false ∨ a < 0 ∨ (s.len : Int) ≤ a
      | .setColor _ _ | .getColor _ | .clear | .beginTransfer | .isDone | .refresh => s.bufExists = false

/-- A next state of GETCOLOR, PEEK, ISDONE or PACK differs from the state before in the record of returned values
alone, by exactly one value; bits [31:24] of GETCOLOR's and PACK's value and bits [31:8] of PEEK's are zero. The
record is the model's own (log 7). (Derived from 20_memory.md R46, 30_encoding.md R65.) -/
def Obligations.ReadsHaveNoSideEffect : Prop :=
  ∀ (s t : State) (i : Instr), exec i s = .next t →
    (∀ x, i = .getColor x → ∃ v : Value, t = { s with returned := s.returned ++ [v] } ∧ v.toNat < 2 ^ 24) ∧
    (∀ x, i = .peek x → ∃ v : Value, t = { s with returned := s.returned ++ [v] } ∧ v.toNat < 2 ^ 8) ∧
    (i = .isDone → ∃ v : Value, t = { s with returned := s.returned ++ [v] } ∧ v.toNat < 2) ∧
    (∀ r g b, i = .pack r g b → ∃ v : Value, t = { s with returned := s.returned ++ [v] } ∧ v.toNat < 2 ^ 24)

/-- In a legal state L is at most 32767, every slot address is at most 32762 and below the latch region, and while
Active the incremented cursor is one more than the cursor, at most L, with no wrap and no change of sign before L.
(Derived from 40_frame_buffer.md R86, 41_transfer_engine.md R98.) -/
def Obligations.AddressesAndCursorNeverWrap : Prop :=
  ∀ s : State, Legal s →
    s.len ≤ 32767 ∧
    (∀ (slot : Nat) (k : Fin 3), slot < s.leds → slotAddr slot k ≤ 32762 ∧ slotAddr slot k < 3 * s.leds) ∧
    (s.isActive = true → (s.cur + 1#16).toNat = s.cur.toNat + 1 ∧ s.cur.toNat + 1 ≤ s.len ∧
      (s.cur + 1#16).getLsbD 15 = false)

/-- From a legal, enabled, Idle state with a buffer: BEGIN and then one TICK emit the byte at index 0. From a legal,
enabled, Active state with the cursor at L-1: TICK and then ISDONE returns 1. No synchroniser delay is the spec's
own decision D16. (Derived from 20_memory.md R53.) -/
def Obligations.HandshakeHasNoDelay : Prop :=
  (∀ s : State, Legal s → s.bufExists = true → s.en = true → s.isIdle = true →
    ∃ t u b, exec .beginTransfer s = .next t ∧ exec .tick t = .next u ∧ s.holds 0 b ∧
      u.out = b ∧ u.trace = s.trace ++ [b]) ∧
  (∀ s : State, Legal s → s.en = true → s.isActive = true → s.cur.toNat + 1 = s.len →
    ∃ t u, exec .tick s = .next t ∧ exec .isDone t = .next u ∧ u.returned = s.returned ++ [1#32])

/-- From a legal, enabled state with every LED byte 0x00 and the cursor at 0 (what INIT and CLEAR leave when they
arm a transfer), L timing events append exactly 3N bytes 0x00 and 0x7F, 0xFF, 0xFF, 0x80 to the trace and leave the
engine Idle. (Derived from 42_external.md R100, 40_frame_buffer.md R83.) -/
def Obligations.DarkTransferSendsTheAllOffFrame : Prop :=
  ∀ (s : State) (rest : List Event), Legal s → s.bufExists = true → s.en = true → s.dark → s.cur = 0#16 →
    s.events = List.replicate s.len .tick ++ rest →
    ∃ t, runSteps s.len s = .next t ∧
      t.trace = s.trace ++ List.replicate (3 * s.leds) 0x00#8 ++ [0x7F#8, 0xFF#8, 0xFF#8, 0x80#8] ∧
      t.cur = Config.idle ∧ t.events = rest

/-- From a legal, enabled, Active state, a byte write at index a inside the buffer followed by TICK emits the
written byte when a is the cursor and the byte that stood at the cursor otherwise. (Derived from 20_memory.md R50,
R54.) -/
def Obligations.WriteIsSeenByTheNextTimingEvent : Prop :=
  ∀ (s t : State) (a : Nat) (v : Byte), Legal s → s.en = true → s.isActive = true → s.memWrite a v = .next t →
    ∃ u, exec .tick t = .next u ∧
      (a = s.cur.toNat → u.out = v) ∧ (a ≠ s.cur.toNat → s.holds s.cur.toNat u.out)
end

