-- ==== Sys2Proof/Laws/Encoding.lean ====
section
/-! SUPPORT. The fields of a command word put together from its fields (spec/30_encoding.md R61, R70). -/

namespace Sys2Proof

/-- A command word bit by bit. -/
theorem getLsbD_commandWord (op : BitVec 8) (index : BitVec 16) (data : BitVec 32) (k : Nat) :
    (commandWord op index data).getLsbD k =
      if k < 32 then data.getLsbD k
      else if k < 48 then index.getLsbD (k - 32)
      else if k < 56 then false
      else op.getLsbD (k - 56) := by
  have hd (h : 32 ≤ k) : data.getLsbD k = false := BitVec.getLsbD_of_ge _ _ h
  have hi (h : 48 ≤ k) : index.getLsbD (k - 32) = false := BitVec.getLsbD_of_ge _ _ (by omega)
  have ho (h : 64 ≤ k) : op.getLsbD (k - 56) = false := BitVec.getLsbD_of_ge _ _ (by omega)
  simp only [commandWord, BitVec.getLsbD_or, BitVec.getLsbD_shiftLeft, BitVec.getLsbD_setWidth]
  by_cases h1 : k < 32
  · simp [h1, show k < 56 by omega, show k < 64 by omega]
  · by_cases h2 : k < 48
    · simp [h1, h2, hd (by omega), show k < 56 by omega, show k < 64 by omega, show k - 32 < 64 by omega]
    · by_cases h3 : k < 56
      · simp [h1, h2, h3, hd (by omega), hi (by omega)]
      · by_cases h4 : k < 64
        · simp [h1, h2, h3, h4, hd (by omega), hi (by omega), show k - 56 < 64 by omega]
        · simp [h1, h2, h3, h4, ho (by omega)]

@[simp] theorem dataField_commandWord (op : BitVec 8) (index : BitVec 16) (data : BitVec 32) :
    dataField (commandWord op index data) = data := by
  apply BitVec.eq_of_getLsbD_eq
  intro k hk
  simp [dataField, getLsbD_commandWord, hk]

@[simp] theorem indexField_commandWord (op : BitVec 8) (index : BitVec 16) (data : BitVec 32) :
    indexField (commandWord op index data) = index := by
  apply BitVec.eq_of_getLsbD_eq
  intro k hk
  simp [indexField, getLsbD_commandWord, hk, show 32 + k < 48 by omega]

@[simp] theorem zeroField_commandWord (op : BitVec 8) (index : BitVec 16) (data : BitVec 32) :
    zeroField (commandWord op index data) = 0#8 := by
  apply BitVec.eq_of_getLsbD_eq
  intro k hk
  simp [zeroField, getLsbD_commandWord, show ¬ 48 + k < 32 by omega, show ¬ 48 + k < 48 by omega,
    show 48 + k < 56 by omega]

@[simp] theorem opField_commandWord (op : BitVec 8) (index : BitVec 16) (data : BitVec 32) :
    opField (commandWord op index data) = op := by
  apply BitVec.eq_of_getLsbD_eq
  intro k hk
  simp [opField, getLsbD_commandWord, hk, show ¬ 56 + k < 32 by omega, show ¬ 56 + k < 48 by omega]

/-- A word whose `zero` field is zero is put together from its own fields. -/
theorem commandWord_fields {w : Command} (h : zeroField w = 0#8) :
    commandWord (opField w) (indexField w) (dataField w) = w := by
  apply BitVec.eq_of_getLsbD_eq
  intro k hk
  have hz (h1 : ¬ k < 48) (h2 : k < 56) : w.getLsbD k = false := by
    have := congrArg (·.getLsbD (k - 48)) h
    simpa [zeroField, show k - 48 < 8 by omega, show 48 + (k - 48) = k by omega] using this
  rw [getLsbD_commandWord]
  by_cases h1 : k < 32
  · simp [h1, dataField]
  · by_cases h2 : k < 48
    · simp [h1, h2, indexField, show 32 + (k - 32) = k by omega, show k - 32 < 16 by omega]
    · by_cases h3 : k < 56
      · simp only [h1, h2, h3, if_true, if_false, hz h2 h3]
      · simp only [h1, h2, h3, if_false, opField, BitVec.getLsbD_extractLsb', show 56 + (k - 56) = k by omega,
          show k - 56 < 8 by omega, decide_true, Bool.true_and]

/-- Masking a command word masks its fields; what the mask has in the `zero` field does not matter. -/
theorem commandWord_and (op : BitVec 8) (index : BitVec 16) (data : BitVec 32) (m : Command) :
    commandWord op index data &&& m =
      commandWord (op &&& opField m) (index &&& indexField m) (data &&& dataField m) := by
  apply BitVec.eq_of_getLsbD_eq
  intro k hk
  simp only [BitVec.getLsbD_and, getLsbD_commandWord, opField, indexField, dataField, BitVec.getLsbD_extractLsb']
  split
  · next h => simp [h]
  · split
    · next h1 h2 => simp [show k - 32 < 16 by omega, show 32 + (k - 32) = k by omega]
    · split
      · simp
      · next h1 h2 h3 => simp [show k - 56 < 8 by omega, show 56 + (k - 56) = k by omega]

/-- PACK's data operand bit by bit. -/
theorem getLsbD_packOperand (red green blue : Byte) (k : Nat) :
    (packOperand red green blue).getLsbD k =
      if k < 8 then blue.getLsbD k
      else if k < 16 then green.getLsbD (k - 8)
      else red.getLsbD (k - 16) := by
  have hb (h : 8 ≤ k) : blue.getLsbD k = false := BitVec.getLsbD_of_ge _ _ h
  have hg (h : 16 ≤ k) : green.getLsbD (k - 8) = false := BitVec.getLsbD_of_ge _ _ (by omega)
  have hr (h : 24 ≤ k) : red.getLsbD (k - 16) = false := BitVec.getLsbD_of_ge _ _ (by omega)
  simp only [packOperand, BitVec.getLsbD_or, BitVec.getLsbD_shiftLeft, BitVec.getLsbD_setWidth]
  by_cases h1 : k < 8
  · simp [h1, show k < 16 by omega, show k < 32 by omega]
  · by_cases h2 : k < 16
    · simp [h1, h2, hb (by omega), show k < 32 by omega, show k - 8 < 32 by omega]
    · by_cases h3 : k < 24
      · simp [h1, h2, hb (by omega), hg (by omega), show k < 32 by omega, show k - 16 < 32 by omega]
      · simp [h1, h2, hb (by omega), hg (by omega), hr (by omega)]

/-- PACK's operand leaves `data[31:24]` zero (R62). -/
@[simp] theorem packOperand_high (red green blue : Byte) : packOperand red green blue &&& 0xFF000000#32 = 0#32 := by
  apply BitVec.eq_of_getLsbD_eq
  intro k hk
  simp only [BitVec.getLsbD_and, getLsbD_packOperand]
  by_cases h : k < 24
  · have : (0xFF000000#32).getLsbD k = false := by
      have : ∀ j : Fin 24, (0xFF000000#32).getLsbD j = false := by decide
      exact this ⟨k, h⟩
    simp [this]
  · have : red.getLsbD (k - 16) = false := BitVec.getLsbD_of_ge _ _ (by omega)
    simp [this, show ¬ k < 8 by omega, show ¬ k < 16 by omega]

@[simp] theorem packOperand_red (red green blue : Byte) : (packOperand red green blue).extractLsb' 16 8 = red := by
  apply BitVec.eq_of_getLsbD_eq
  intro k hk
  simp [getLsbD_packOperand, hk, show ¬ 16 + k < 8 by omega, show ¬ 16 + k < 16 by omega]

@[simp] theorem packOperand_green (red green blue : Byte) : (packOperand red green blue).extractLsb' 8 8 = green := by
  apply BitVec.eq_of_getLsbD_eq
  intro k hk
  simp [getLsbD_packOperand, hk, show 8 + k < 16 by omega]

@[simp] theorem packOperand_blue (red green blue : Byte) : (packOperand red green blue).extractLsb' 0 8 = blue := by
  apply BitVec.eq_of_getLsbD_eq
  intro k hk
  simp [getLsbD_packOperand, hk]

end Sys2Proof
end

