-- ==== Sys2Proof/Laws/Memory.lean ====
section
/-! SUPPORT. The laws of the buffer as data: reading back, leaving other bytes alone, and the canonical form. -/

namespace Sys2Proof.Machine

@[simp] theorem Memory.read_nil (a : Nat) : Memory.read [] a = none := rfl

@[simp] theorem Memory.read_cons (b : Nat) (v : Byte) (m : Memory) (a : Nat) :
    Memory.read ((b, v) :: m) a = if a = b then some v else Memory.read m a := rfl

/-- A read after a write gives the value written, and every other index reads as before. -/
theorem Memory.read_write (m : Memory) (a : Nat) (v : Byte) (c : Nat) :
    Memory.read (Memory.write m a v) c = if c = a then some v else Memory.read m c := by
  induction m with
  | nil => simp [Memory.write]
  | cons cell m ih =>
    obtain ⟨b, w⟩ := cell
    simp only [Memory.write]
    split
    · simp
    · split
      · next h => subst h; by_cases hc : c = a <;> simp [hc]
      · next h =>
        simp only [Memory.read_cons, ih]
        by_cases hb : c = b
        · have : c ≠ a := by omega
          simp [hb]; omega
        · simp [hb]

/-- Every index of a rising list after its head is above the head. -/
theorem Memory.wf_cons {a : Nat} {v : Byte} {m : Memory} :
    Memory.wf ((a, v) :: m) = true ↔ (∀ c ∈ m.map Prod.fst, a < c) ∧ Memory.wf m = true := by
  induction m generalizing a v with
  | nil => simp [Memory.wf]
  | cons cell m ih =>
    obtain ⟨b, w⟩ := cell
    simp only [Memory.wf, Bool.and_eq_true, decide_eq_true_eq, ih, List.map_cons, List.mem_cons, forall_eq_or_imp]
    constructor
    · rintro ⟨hab, hb, hm⟩
      exact ⟨⟨hab, fun c hc => Nat.lt_trans hab (hb c hc)⟩, hb, hm⟩
    · rintro ⟨⟨hab, _⟩, hb, hm⟩
      exact ⟨hab, hb, hm⟩

/-- The indices listed after a write are those before and the one written. -/
theorem Memory.mem_write (m : Memory) (a : Nat) (v : Byte) (c : Nat) :
    c ∈ (Memory.write m a v).map Prod.fst ↔ c = a ∨ c ∈ m.map Prod.fst := by
  induction m with
  | nil => simp [Memory.write]
  | cons cell m ih =>
    obtain ⟨b, w⟩ := cell
    simp only [Memory.write]
    split
    · simp
    · split
      · next h => subst h; simp
      · simp only [List.map_cons, List.mem_cons, ih]; exact or_left_comm

/-- A write keeps the canonical form. -/
theorem Memory.write_wf {m : Memory} (a : Nat) (v : Byte) (h : Memory.wf m = true) :
    Memory.wf (Memory.write m a v) = true := by
  induction m with
  | nil => rfl
  | cons cell m ih =>
    obtain ⟨b, w⟩ := cell
    have hm := Memory.wf_cons.mp h
    simp only [Memory.write]
    split
    · next hlt => simp [Memory.wf, hlt, h]
    · split
      · next heq => subst heq; exact Memory.wf_cons.mpr hm
      · refine Memory.wf_cons.mpr ⟨fun c hc => ?_, ih hm.2⟩
        obtain rfl | hc := (Memory.mem_write m a v c).mp hc
        · omega
        · exact hm.1 c hc

/-- Writing an index that is listed keeps the list of indices. -/
theorem Memory.write_indices {m : Memory} (a : Nat) (v : Byte) (hw : Memory.wf m = true)
    (ha : a ∈ m.map Prod.fst) : (Memory.write m a v).map Prod.fst = m.map Prod.fst := by
  induction m with
  | nil => simp at ha
  | cons cell m ih =>
    obtain ⟨b, w⟩ := cell
    have hm := Memory.wf_cons.mp hw
    simp only [List.map_cons, List.mem_cons] at ha
    simp only [Memory.write]
    split
    · next hlt =>
      rcases ha with rfl | ha
      · omega
      · have := hm.1 a ha; omega
    · split
      · next heq => subst heq; rfl
      · next hne =>
        have ha : a ∈ m.map Prod.fst := ha.resolve_left hne
        simp [ih hm.2 ha]

/-- An index is readable exactly when it is listed. -/
theorem Memory.read_isSome (m : Memory) (a : Nat) : (Memory.read m a).isSome = true ↔ a ∈ m.map Prod.fst := by
  induction m with
  | nil => simp
  | cons cell m ih =>
    obtain ⟨b, w⟩ := cell
    by_cases h : a = b
    · simp [h]
    · simp [h, ih]

theorem Memory.place_indices (base : Nat) (bs : List Byte) :
    (Memory.place base bs).map Prod.fst = List.range' base bs.length := by
  induction bs generalizing base with
  | nil => rfl
  | cons b bs ih => simp [Memory.place, ih, List.range'_succ]

theorem Memory.place_bytes (base : Nat) (bs : List Byte) :
    (Memory.place base bs).map Prod.snd = bs := by
  induction bs generalizing base with
  | nil => rfl
  | cons b bs ih => simp [Memory.place, ih]

theorem Memory.read_place (base : Nat) (bs : List Byte) (a : Nat) :
    Memory.read (Memory.place base bs) (base + a) = bs[a]? := by
  induction bs generalizing base a with
  | nil => simp [Memory.place]
  | cons b bs ih =>
    cases a with
    | zero => simp [Memory.place]
    | succ a => simpa [Memory.place, Nat.add_assoc, Nat.add_comm 1 a] using ih (base + 1) a

theorem Memory.place_wf (base : Nat) (bs : List Byte) : Memory.wf (Memory.place base bs) = true := by
  induction bs generalizing base with
  | nil => rfl
  | cons b bs ih =>
    refine Memory.wf_cons.mpr ⟨fun c hc => ?_, ih (base + 1)⟩
    rw [Memory.place_indices, List.mem_range'] at hc
    omega

/-- The buffer CONSTRUCT makes has the indices 0 to 3n + 3. -/
theorem Memory.fresh_indices (n d : Nat) : (Memory.fresh n d).map Prod.fst = List.range (4 + 3 * n) := by
  rw [Memory.fresh, Memory.place_indices]
  simp only [Config.latch, List.range_eq_range', List.length_append, List.length_map, List.length_range',
    List.length_cons, List.length_nil, Nat.add_comm, Nat.reduceAdd]

theorem Memory.fresh_wf (n d : Nat) : Memory.wf (Memory.fresh n d) = true := Memory.place_wf _ _

/-- The buffer CONSTRUCT makes: free bytes in the LED region, the latch bytes after it. -/
theorem Memory.read_fresh (n d a : Nat) :
    Memory.read (Memory.fresh n d) a =
      if a < 3 * n then some (Config.draw (d + a)) else Config.latch[a - 3 * n]? := by
  have h := Memory.read_place 0 ((List.range (3 * n)).map (fun a => Config.draw (d + a)) ++ Config.latch) a
  rw [Nat.zero_add] at h
  rw [Memory.fresh, h, List.getElem?_append]
  by_cases ha : a < 3 * n <;> simp [ha]

end Sys2Proof.Machine
end

