-- ==== Sys2Proof/Laws/State.lean ====
section
/-! SUPPORT. What each update of State does to each field, so that no proof unfolds a record update. -/

namespace Sys2Proof.Machine

variable (s : State)

/-! ### setBuf -/

@[simp] theorem State.setBuf_bufExists (m : Memory) : (s.setBuf m).bufExists = s.bufExists := rfl
@[simp] theorem State.setBuf_en (m : Memory) : (s.setBuf m).en = s.en := rfl
@[simp] theorem State.setBuf_ledCount (m : Memory) : (s.setBuf m).ledCount = s.ledCount := rfl
@[simp] theorem State.setBuf_buf (m : Memory) : (s.setBuf m).buf = m := rfl
@[simp] theorem State.setBuf_cur (m : Memory) : (s.setBuf m).cur = s.cur := rfl
@[simp] theorem State.setBuf_out (m : Memory) : (s.setBuf m).out = s.out := rfl
@[simp] theorem State.setBuf_trace (m : Memory) : (s.setBuf m).trace = s.trace := rfl
@[simp] theorem State.setBuf_seq (m : Memory) : (s.setBuf m).seq = s.seq := rfl
@[simp] theorem State.setBuf_returned (m : Memory) : (s.setBuf m).returned = s.returned := rfl
@[simp] theorem State.setBuf_draws (m : Memory) : (s.setBuf m).draws = s.draws := rfl
@[simp] theorem State.setBuf_program (m : Memory) : (s.setBuf m).program = s.program := rfl
@[simp] theorem State.setBuf_events (m : Memory) : (s.setBuf m).events = s.events := rfl
@[simp] theorem State.setBuf_leds (m : Memory) : (s.setBuf m).leds = s.leds := rfl
@[simp] theorem State.setBuf_len (m : Memory) : (s.setBuf m).len = s.len := rfl
@[simp] theorem State.setBuf_isIdle (m : Memory) : (s.setBuf m).isIdle = s.isIdle := rfl
@[simp] theorem State.setBuf_isActive (m : Memory) : (s.setBuf m).isActive = s.isActive := rfl

/-! ### setCur -/

@[simp] theorem State.setCur_bufExists (v : CursorWord) : (s.setCur v).bufExists = s.bufExists := rfl
@[simp] theorem State.setCur_en (v : CursorWord) : (s.setCur v).en = s.en := rfl
@[simp] theorem State.setCur_ledCount (v : CursorWord) : (s.setCur v).ledCount = s.ledCount := rfl
@[simp] theorem State.setCur_buf (v : CursorWord) : (s.setCur v).buf = s.buf := rfl
@[simp] theorem State.setCur_cur (v : CursorWord) : (s.setCur v).cur = v := rfl
@[simp] theorem State.setCur_out (v : CursorWord) : (s.setCur v).out = s.out := rfl
@[simp] theorem State.setCur_trace (v : CursorWord) : (s.setCur v).trace = s.trace := rfl
@[simp] theorem State.setCur_seq (v : CursorWord) : (s.setCur v).seq = s.seq := rfl
@[simp] theorem State.setCur_returned (v : CursorWord) : (s.setCur v).returned = s.returned := rfl
@[simp] theorem State.setCur_draws (v : CursorWord) : (s.setCur v).draws = s.draws := rfl
@[simp] theorem State.setCur_program (v : CursorWord) : (s.setCur v).program = s.program := rfl
@[simp] theorem State.setCur_events (v : CursorWord) : (s.setCur v).events = s.events := rfl
@[simp] theorem State.setCur_leds (v : CursorWord) : (s.setCur v).leds = s.leds := rfl
@[simp] theorem State.setCur_len (v : CursorWord) : (s.setCur v).len = s.len := rfl
@[simp] theorem State.setCur_memRead (v : CursorWord) (a : Nat) : (s.setCur v).memRead a = s.memRead a := rfl

/-! ### setSeq -/

@[simp] theorem State.setSeq_bufExists (q : Sequencer) : (s.setSeq q).bufExists = s.bufExists := rfl
@[simp] theorem State.setSeq_en (q : Sequencer) : (s.setSeq q).en = s.en := rfl
@[simp] theorem State.setSeq_ledCount (q : Sequencer) : (s.setSeq q).ledCount = s.ledCount := rfl
@[simp] theorem State.setSeq_buf (q : Sequencer) : (s.setSeq q).buf = s.buf := rfl
@[simp] theorem State.setSeq_cur (q : Sequencer) : (s.setSeq q).cur = s.cur := rfl
@[simp] theorem State.setSeq_out (q : Sequencer) : (s.setSeq q).out = s.out := rfl
@[simp] theorem State.setSeq_trace (q : Sequencer) : (s.setSeq q).trace = s.trace := rfl
@[simp] theorem State.setSeq_seq (q : Sequencer) : (s.setSeq q).seq = q := rfl
@[simp] theorem State.setSeq_returned (q : Sequencer) : (s.setSeq q).returned = s.returned := rfl
@[simp] theorem State.setSeq_draws (q : Sequencer) : (s.setSeq q).draws = s.draws := rfl
@[simp] theorem State.setSeq_program (q : Sequencer) : (s.setSeq q).program = s.program := rfl
@[simp] theorem State.setSeq_events (q : Sequencer) : (s.setSeq q).events = s.events := rfl
@[simp] theorem State.setSeq_leds (q : Sequencer) : (s.setSeq q).leds = s.leds := rfl
@[simp] theorem State.setSeq_len (q : Sequencer) : (s.setSeq q).len = s.len := rfl
@[simp] theorem State.setSeq_memRead (q : Sequencer) (a : Nat) : (s.setSeq q).memRead a = s.memRead a := rfl
@[simp] theorem State.setSeq_isIdle (q : Sequencer) : (s.setSeq q).isIdle = s.isIdle := rfl
@[simp] theorem State.setSeq_isActive (q : Sequencer) : (s.setSeq q).isActive = s.isActive := rfl

/-! ### enable -/

@[simp] theorem State.enable_bufExists : (s.enable).bufExists = s.bufExists := rfl
@[simp] theorem State.enable_en : (s.enable).en = true := rfl
@[simp] theorem State.enable_ledCount : (s.enable).ledCount = s.ledCount := rfl
@[simp] theorem State.enable_buf : (s.enable).buf = s.buf := rfl
@[simp] theorem State.enable_cur : (s.enable).cur = s.cur := rfl
@[simp] theorem State.enable_out : (s.enable).out = s.out := rfl
@[simp] theorem State.enable_trace : (s.enable).trace = s.trace := rfl
@[simp] theorem State.enable_seq : (s.enable).seq = s.seq := rfl
@[simp] theorem State.enable_returned : (s.enable).returned = s.returned := rfl
@[simp] theorem State.enable_draws : (s.enable).draws = s.draws := rfl
@[simp] theorem State.enable_program : (s.enable).program = s.program := rfl
@[simp] theorem State.enable_events : (s.enable).events = s.events := rfl
@[simp] theorem State.enable_leds : (s.enable).leds = s.leds := rfl
@[simp] theorem State.enable_len : (s.enable).len = s.len := rfl
@[simp] theorem State.enable_memRead (a : Nat) : (s.enable).memRead a = s.memRead a := rfl
@[simp] theorem State.enable_isIdle : (s.enable).isIdle = s.isIdle := rfl
@[simp] theorem State.enable_isActive : (s.enable).isActive = s.isActive := rfl

/-! ### emit -/

@[simp] theorem State.emit_bufExists (b : Byte) : (s.emit b).bufExists = s.bufExists := rfl
@[simp] theorem State.emit_en (b : Byte) : (s.emit b).en = s.en := rfl
@[simp] theorem State.emit_ledCount (b : Byte) : (s.emit b).ledCount = s.ledCount := rfl
@[simp] theorem State.emit_buf (b : Byte) : (s.emit b).buf = s.buf := rfl
@[simp] theorem State.emit_cur (b : Byte) : (s.emit b).cur = s.cur := rfl
@[simp] theorem State.emit_out (b : Byte) : (s.emit b).out = b := rfl
@[simp] theorem State.emit_trace (b : Byte) : (s.emit b).trace = s.trace ++ [b] := rfl
@[simp] theorem State.emit_seq (b : Byte) : (s.emit b).seq = s.seq := rfl
@[simp] theorem State.emit_returned (b : Byte) : (s.emit b).returned = s.returned := rfl
@[simp] theorem State.emit_draws (b : Byte) : (s.emit b).draws = s.draws := rfl
@[simp] theorem State.emit_program (b : Byte) : (s.emit b).program = s.program := rfl
@[simp] theorem State.emit_events (b : Byte) : (s.emit b).events = s.events := rfl
@[simp] theorem State.emit_leds (b : Byte) : (s.emit b).leds = s.leds := rfl
@[simp] theorem State.emit_len (b : Byte) : (s.emit b).len = s.len := rfl
@[simp] theorem State.emit_memRead (b : Byte) (a : Nat) : (s.emit b).memRead a = s.memRead a := rfl
@[simp] theorem State.emit_isIdle (b : Byte) : (s.emit b).isIdle = s.isIdle := rfl
@[simp] theorem State.emit_isActive (b : Byte) : (s.emit b).isActive = s.isActive := rfl

/-! ### give -/

@[simp] theorem State.give_bufExists (v : Value) : (s.give v).bufExists = s.bufExists := rfl
@[simp] theorem State.give_en (v : Value) : (s.give v).en = s.en := rfl
@[simp] theorem State.give_ledCount (v : Value) : (s.give v).ledCount = s.ledCount := rfl
@[simp] theorem State.give_buf (v : Value) : (s.give v).buf = s.buf := rfl
@[simp] theorem State.give_cur (v : Value) : (s.give v).cur = s.cur := rfl
@[simp] theorem State.give_out (v : Value) : (s.give v).out = s.out := rfl
@[simp] theorem State.give_trace (v : Value) : (s.give v).trace = s.trace := rfl
@[simp] theorem State.give_seq (v : Value) : (s.give v).seq = s.seq := rfl
@[simp] theorem State.give_returned (v : Value) : (s.give v).returned = s.returned ++ [v] := rfl
@[simp] theorem State.give_draws (v : Value) : (s.give v).draws = s.draws := rfl
@[simp] theorem State.give_program (v : Value) : (s.give v).program = s.program := rfl
@[simp] theorem State.give_events (v : Value) : (s.give v).events = s.events := rfl
@[simp] theorem State.give_leds (v : Value) : (s.give v).leds = s.leds := rfl
@[simp] theorem State.give_len (v : Value) : (s.give v).len = s.len := rfl
@[simp] theorem State.give_memRead (v : Value) (a : Nat) : (s.give v).memRead a = s.memRead a := rfl
@[simp] theorem State.give_isIdle (v : Value) : (s.give v).isIdle = s.isIdle := rfl
@[simp] theorem State.give_isActive (v : Value) : (s.give v).isActive = s.isActive := rfl

/-! ### setEvents -/

@[simp] theorem State.setEvents_bufExists (es : List Event) : (s.setEvents es).bufExists = s.bufExists := rfl
@[simp] theorem State.setEvents_en (es : List Event) : (s.setEvents es).en = s.en := rfl
@[simp] theorem State.setEvents_ledCount (es : List Event) : (s.setEvents es).ledCount = s.ledCount := rfl
@[simp] theorem State.setEvents_buf (es : List Event) : (s.setEvents es).buf = s.buf := rfl
@[simp] theorem State.setEvents_cur (es : List Event) : (s.setEvents es).cur = s.cur := rfl
@[simp] theorem State.setEvents_out (es : List Event) : (s.setEvents es).out = s.out := rfl
@[simp] theorem State.setEvents_trace (es : List Event) : (s.setEvents es).trace = s.trace := rfl
@[simp] theorem State.setEvents_seq (es : List Event) : (s.setEvents es).seq = s.seq := rfl
@[simp] theorem State.setEvents_returned (es : List Event) : (s.setEvents es).returned = s.returned := rfl
@[simp] theorem State.setEvents_draws (es : List Event) : (s.setEvents es).draws = s.draws := rfl
@[simp] theorem State.setEvents_program (es : List Event) : (s.setEvents es).program = s.program := rfl
@[simp] theorem State.setEvents_events (es : List Event) : (s.setEvents es).events = es := rfl
@[simp] theorem State.setEvents_leds (es : List Event) : (s.setEvents es).leds = s.leds := rfl
@[simp] theorem State.setEvents_len (es : List Event) : (s.setEvents es).len = s.len := rfl
@[simp] theorem State.setEvents_memRead (es : List Event) (a : Nat) : (s.setEvents es).memRead a = s.memRead a := rfl
@[simp] theorem State.setEvents_isIdle (es : List Event) : (s.setEvents es).isIdle = s.isIdle := rfl
@[simp] theorem State.setEvents_isActive (es : List Event) : (s.setEvents es).isActive = s.isActive := rfl

/-! ### setProgram -/

@[simp] theorem State.setProgram_bufExists (ws : List Command) : (s.setProgram ws).bufExists = s.bufExists := rfl
@[simp] theorem State.setProgram_en (ws : List Command) : (s.setProgram ws).en = s.en := rfl
@[simp] theorem State.setProgram_ledCount (ws : List Command) : (s.setProgram ws).ledCount = s.ledCount := rfl
@[simp] theorem State.setProgram_buf (ws : List Command) : (s.setProgram ws).buf = s.buf := rfl
@[simp] theorem State.setProgram_cur (ws : List Command) : (s.setProgram ws).cur = s.cur := rfl
@[simp] theorem State.setProgram_out (ws : List Command) : (s.setProgram ws).out = s.out := rfl
@[simp] theorem State.setProgram_trace (ws : List Command) : (s.setProgram ws).trace = s.trace := rfl
@[simp] theorem State.setProgram_seq (ws : List Command) : (s.setProgram ws).seq = s.seq := rfl
@[simp] theorem State.setProgram_returned (ws : List Command) : (s.setProgram ws).returned = s.returned := rfl
@[simp] theorem State.setProgram_draws (ws : List Command) : (s.setProgram ws).draws = s.draws := rfl
@[simp] theorem State.setProgram_program (ws : List Command) : (s.setProgram ws).program = ws := rfl
@[simp] theorem State.setProgram_events (ws : List Command) : (s.setProgram ws).events = s.events := rfl
@[simp] theorem State.setProgram_leds (ws : List Command) : (s.setProgram ws).leds = s.leds := rfl
@[simp] theorem State.setProgram_len (ws : List Command) : (s.setProgram ws).len = s.len := rfl
@[simp] theorem State.setProgram_memRead (ws : List Command) (a : Nat) : (s.setProgram ws).memRead a = s.memRead a := rfl
@[simp] theorem State.setProgram_isIdle (ws : List Command) : (s.setProgram ws).isIdle = s.isIdle := rfl
@[simp] theorem State.setProgram_isActive (ws : List Command) : (s.setProgram ws).isActive = s.isActive := rfl

/-! ### construct -/

@[simp] theorem State.construct_bufExists (n : Nat) : (s.construct n).bufExists = true := rfl
@[simp] theorem State.construct_en (n : Nat) : (s.construct n).en = s.en := rfl
@[simp] theorem State.construct_ledCount (n : Nat) : (s.construct n).ledCount = BitVec.ofNat 16 n := rfl
@[simp] theorem State.construct_buf (n : Nat) : (s.construct n).buf = Memory.fresh n s.draws := rfl
@[simp] theorem State.construct_cur (n : Nat) : (s.construct n).cur = Config.idle := rfl
@[simp] theorem State.construct_out (n : Nat) : (s.construct n).out = s.out := rfl
@[simp] theorem State.construct_trace (n : Nat) : (s.construct n).trace = s.trace := rfl
@[simp] theorem State.construct_seq (n : Nat) : (s.construct n).seq = s.seq := rfl
@[simp] theorem State.construct_returned (n : Nat) : (s.construct n).returned = s.returned := rfl
@[simp] theorem State.construct_draws (n : Nat) : (s.construct n).draws = s.draws + 3 * n := rfl
@[simp] theorem State.construct_program (n : Nat) : (s.construct n).program = s.program := rfl
@[simp] theorem State.construct_events (n : Nat) : (s.construct n).events = s.events := rfl

/-! ### powerOn -/

@[simp] theorem State.powerOn_bufExists : s.powerOn.bufExists = State.reset.bufExists := rfl
@[simp] theorem State.powerOn_en : s.powerOn.en = State.reset.en := rfl
@[simp] theorem State.powerOn_ledCount : s.powerOn.ledCount = State.reset.ledCount := rfl
@[simp] theorem State.powerOn_buf : s.powerOn.buf = State.reset.buf := rfl
@[simp] theorem State.powerOn_cur : s.powerOn.cur = State.reset.cur := rfl
@[simp] theorem State.powerOn_out : s.powerOn.out = State.reset.out := rfl
@[simp] theorem State.powerOn_trace : s.powerOn.trace = State.reset.trace := rfl
@[simp] theorem State.powerOn_seq : s.powerOn.seq = State.reset.seq := rfl
@[simp] theorem State.powerOn_returned : s.powerOn.returned = State.reset.returned := rfl
@[simp] theorem State.powerOn_draws : s.powerOn.draws = s.draws := rfl
@[simp] theorem State.powerOn_program : s.powerOn.program = s.program := rfl
@[simp] theorem State.powerOn_events : s.powerOn.events = s.events := rfl

/-! ### Commuting updates -/

@[simp] theorem State.setEvents_setEvents (es fs : List Event) : (s.setEvents es).setEvents fs = s.setEvents fs := rfl
@[simp] theorem State.setEvents_events_self : s.setEvents s.events = s := rfl
@[simp] theorem State.setSeq_seq_self : s.setSeq s.seq = s := rfl
@[simp] theorem State.setSeq_setSeq (p q : Sequencer) : (s.setSeq p).setSeq q = s.setSeq q := rfl

end Sys2Proof.Machine
end

