-- ==== Sys2Proof/Laws/Ops.lean ====
section
/-! SUPPORT. One law per shared operation: everything it can do. Proofs about meanings cite these and do not unfold
the operations. -/

namespace Sys2Proof.Machine

/-! ## Plumbing -/

@[simp] theorem thenDo_next (s : State) (f : State → Result) : thenDo (.next s) f = f s := rfl

/-- A chain ends in a next state exactly when each part does. -/
theorem thenDo_eq_next {r : Result} {f : State → Result} {t : State} :
    thenDo r f = .next t ↔ ∃ u, r = .next u ∧ f u = .next t := by
  cases r <;> simp [thenDo]

theorem State.needBuffer_of_exists {s : State} (h : s.bufExists = true) (r : Result) : s.needBuffer r = r := by
  simp [State.needBuffer, h]

theorem State.needBuffer_of_absent {s : State} (h : s.bufExists = false) (r : Result) :
    s.needBuffer r = .refused .noStripBuffer := by
  simp [State.needBuffer, h]

theorem State.needBuffer_eq_next {s t : State} {r : Result} :
    s.needBuffer r = .next t ↔ s.bufExists = true ∧ r = .next t := by
  cases h : s.bufExists <;> simp [State.needBuffer, h]

/-! ## The buffer through the state -/

theorem State.memRead_eq (s : State) (a : Nat) :
    s.memRead a = if s.bufExists = true ∧ a < s.len then Memory.read s.buf a else none := by
  simp [State.memRead]

theorem State.lt_of_holds {s : State} {a : Nat} {b : Byte} (h : s.holds a b) : s.bufExists = true ∧ a < s.len := by
  rw [State.holds, State.memRead_eq] at h
  split at h
  · assumption
  · cases h

theorem State.readThen_of_holds {s : State} {a : Nat} {b : Byte} (h : s.holds a b) (f : Byte → Result) :
    s.readThen a f = f b := by
  rw [State.holds] at h
  simp [State.readThen, h]

theorem State.readThen_eq_next {s t : State} {a : Nat} {f : Byte → Result} :
    s.readThen a f = .next t ↔ ∃ b, s.holds a b ∧ f b = .next t := by
  cases h : s.memRead a <;> simp [State.readThen, State.holds, h]

/-- A write inside the existing buffer succeeds. -/
theorem State.memWrite_of_lt {s : State} {a : Nat} (h : s.bufExists = true) (ha : a < s.len) (v : Byte) :
    s.memWrite a v = .next (s.setBuf (Memory.write s.buf a v)) := by
  simp [State.memWrite, h, ha]

/-- All a write can do when it succeeds. -/
theorem State.memWrite_eq_next {s t : State} {a : Nat} {v : Byte} :
    s.memWrite a v = .next t ↔
      s.bufExists = true ∧ a < s.len ∧ t = s.setBuf (Memory.write s.buf a v) := by
  rw [State.memWrite]
  split
  · next h =>
    rw [Bool.and_eq_true, decide_eq_true_eq] at h
    simp [h, eq_comm]
  · next h =>
    rw [Bool.and_eq_true, decide_eq_true_eq] at h
    simp only [reduceCtorEq, false_iff]
    exact fun ⟨h1, h2, _⟩ => h ⟨h1, h2⟩

/-- Reading after a write inside the existing buffer: the byte written, and every other index as before. -/
theorem State.memRead_setBuf_write {s : State} {a : Nat} (h : s.bufExists = true) (ha : a < s.len) (v : Byte)
    (c : Nat) : (s.setBuf (Memory.write s.buf a v)).memRead c = if c = a then some v else s.memRead c := by
  simp only [State.memRead_eq, State.setBuf_bufExists, State.setBuf_len, State.setBuf_buf, Memory.read_write, h,
    true_and]
  by_cases hc : c = a
  · simp [hc, ha]
  · simp [hc]

/-! ## Operands -/

theorem State.slotOf_of_range {s : State} {i : Int} (h0 : 0 ≤ i) (h1 : i < s.leds) : s.slotOf i = some i.toNat := by
  rw [State.slotOf, if_neg (by omega)]

theorem State.slotOf_of_outside {s : State} {i : Int} (h : i < 0 ∨ (s.leds : Int) ≤ i) : s.slotOf i = none := by
  rw [State.slotOf, if_pos h]

/-- An accepted index names a slot below N. -/
theorem State.slotOf_eq_some {s : State} {i : Int} {slot : Nat} :
    s.slotOf i = some slot ↔ 0 ≤ i ∧ slot = i.toNat ∧ slot < s.leds := by
  rw [State.slotOf]
  split
  · simp only [reduceCtorEq, false_iff]; omega
  · simp only [Option.some.injEq]; omega

theorem State.bufIndexOf_of_range {s : State} {i : Int} (h0 : 0 ≤ i) (h1 : i < s.len) :
    s.bufIndexOf i = some i.toNat := by
  rw [State.bufIndexOf, if_neg (by omega)]

theorem State.bufIndexOf_of_outside {s : State} {i : Int} (h : i < 0 ∨ (s.len : Int) ≤ i) :
    s.bufIndexOf i = none := by
  rw [State.bufIndexOf, if_pos h]

theorem countOf_eq_some {i : Int} {n : Nat} : countOf i = some n ↔ 0 ≤ i ∧ n = i.toNat ∧ n ≤ Config.nmax := by
  rw [countOf]
  split
  · simp only [reduceCtorEq, false_iff]; omega
  · simp only [Option.some.injEq]; omega

theorem countOf_of_outside {i : Int} (h : i < 0 ∨ (Config.nmax : Int) < i) : countOf i = none := by
  rw [countOf, if_pos h]

/-- An address of a slot below N is below the latch region. -/
theorem slotAddr_lt {slot n : Nat} (h : slot < n) (k : Fin 3) : slotAddr slot k < 3 * n := by
  have := k.isLt
  rw [slotAddr]; omega

/-- The clamp never gives more than 0xFFFFFE. -/
theorem clampColour_le (c : Value) : (clampColour c).toNat ≤ Config.clampTo.toNat := by
  rw [clampColour]
  split
  · exact Nat.le_refl _
  · next h =>
    have h1 : Config.clampAt.toNat = 0xFFFFFF := rfl
    have h2 : Config.clampTo.toNat = 0xFFFFFE := rfl
    omega

/-! ## Cursor and sequencer steps -/

theorem State.isActive_eq (s : State) : s.isActive = !s.isIdle := rfl

/-- The begin step: a new start when Idle, nothing when Active. -/
theorem State.beginStep_cases (s : State) :
    (s.isIdle = true ∧ s.beginStep = s.setCur 0#16) ∨ (s.isIdle = false ∧ s.beginStep = s) := by
  cases h : s.isIdle <;> simp [State.beginStep, h]

/-- A poll frees HOST when the engine is Idle and polls again when it is Active. -/
theorem State.poll_cases (s : State) :
    (s.isIdle = true ∧ s.poll = s.setSeq .idle) ∨ (s.isIdle = false ∧ s.poll = s.setSeq .refresh) := by
  cases h : s.isIdle <;> simp [State.poll, h]

/-- The cursor's move: one on, or IDLE at the end of the buffer. -/
theorem State.advance_cases (s : State) :
    ((s.cur + 1#16).toNat = s.len ∧ s.advance = s.setCur Config.idle) ∨
    ((s.cur + 1#16).toNat ≠ s.len ∧ s.advance = s.setCur (s.cur + 1#16)) := by
  by_cases h : (s.cur + 1#16).toNat = s.len
  · exact .inl ⟨h, by rw [State.advance, if_pos h]⟩
  · exact .inr ⟨h, by rw [State.advance, if_neg h]⟩

/-- All a timing event can do: nothing while the handler is off, a filler byte while Idle, the byte at the cursor
while Active. -/
theorem takeTimingEvent_cases {s t : State} (h : s.takeTimingEvent State.emitOneByte = .next t) :
    (s.en = false ∧ t = s) ∨
    (s.en = true ∧ s.isIdle = true ∧ t = s.emit Config.filler) ∨
    (s.en = true ∧ s.isIdle = false ∧ ∃ b, s.holds s.cur.toNat b ∧ t = (s.emit b).advance) := by
  cases hen : s.en with
  | false => simp [State.takeTimingEvent, hen] at h; exact .inl ⟨rfl, h.symm⟩
  | true =>
    cases hi : s.isIdle with
    | true => simp [State.takeTimingEvent, State.emitOneByte, hen, hi] at h; exact .inr (.inl ⟨rfl, rfl, h.symm⟩)
    | false =>
      simp only [State.takeTimingEvent, State.emitOneByte, hen, hi, if_true, Bool.false_eq_true, if_false] at h
      obtain ⟨b, hb, hn⟩ := State.readThen_eq_next.mp h
      simp only [Host.Outcome.next.injEq] at hn
      exact .inr (.inr ⟨rfl, rfl, b, hb, hn.symm⟩)

/-- What the sequencer is after byte `k` of a SETCOLOR is written. -/
def afterSlotByte (slot : Nat) (colour : Value) : Fin 3 → Sequencer
  | 0 => .setColor slot colour 1
  | 1 => .setColor slot colour 2
  | 2 => .idle

/-- A byte write of SETCOLOR on a slot below N succeeds and does exactly this. -/
theorem State.writeSlotByte_of_lt {s : State} {slot : Nat} (h : s.bufExists = true) (hs : slot < s.leds)
    (colour : Value) (k : Fin 3) :
    s.writeSlotByte slot colour k = .next
      ((s.setBuf (Memory.write s.buf (slotAddr slot k) (colourByte colour k))).setSeq
        (afterSlotByte slot colour k)) := by
  have ha : slotAddr slot k < s.len := by
    have := slotAddr_lt hs k
    rw [State.len]; omega
  match k with
  | 0 | 1 | 2 => simp [State.writeSlotByte, State.memWrite_of_lt h ha, afterSlotByte]

/-- All a byte write of SETCOLOR can do. -/
theorem State.writeSlotByte_eq_next {s t : State} {slot : Nat} {colour : Value} {k : Fin 3}
    (h : s.writeSlotByte slot colour k = .next t) :
    s.bufExists = true ∧ slotAddr slot k < s.len ∧
      t = (s.setBuf (Memory.write s.buf (slotAddr slot k) (colourByte colour k))).setSeq
        (afterSlotByte slot colour k) := by
  match k with
  | 0 | 1 | 2 =>
    obtain ⟨u, hu, ht⟩ := thenDo_eq_next.mp h
    obtain ⟨he, ha, rfl⟩ := State.memWrite_eq_next.mp hu
    simp only [Host.Outcome.next.injEq] at ht
    exact ⟨he, ha, ht.symm⟩

/-- A zeroing micro-step of CLEAR or INIT. -/
theorem State.clearByte_of_lt {s : State} {running : Nat → Sequencer} {k : Nat} (h : s.bufExists = true)
    (hk : k < 3 * s.leds) :
    s.clearByte running k = .next ((s.setBuf (Memory.write s.buf k 0#8)).setSeq (running (k + 1))) := by
  have ha : k < s.len := by rw [State.len]; omega
  simp [State.clearByte, hk, State.memWrite_of_lt h ha]

/-- The last micro-step of CLEAR or INIT. -/
theorem State.clearByte_of_ge {s : State} {running : Nat → Sequencer} {k : Nat} (hk : 3 * s.leds ≤ k) :
    s.clearByte running k = .next (s.beginStep.setSeq .idle) := by
  simp [State.clearByte, Nat.not_lt.mpr hk]

/-- All a micro-step of CLEAR or INIT can do. -/
theorem State.clearByte_eq_next {s t : State} {running : Nat → Sequencer} {k : Nat}
    (h : s.clearByte running k = .next t) :
    (s.bufExists = true ∧ k < 3 * s.leds ∧
      t = (s.setBuf (Memory.write s.buf k 0#8)).setSeq (running (k + 1))) ∨
    (3 * s.leds ≤ k ∧ t = s.beginStep.setSeq .idle) := by
  by_cases hk : k < 3 * s.leds
  · simp only [State.clearByte, hk, if_true] at h
    obtain ⟨u, hu, ht⟩ := thenDo_eq_next.mp h
    obtain ⟨he, _, rfl⟩ := State.memWrite_eq_next.mp hu
    simp only [Host.Outcome.next.injEq] at ht
    exact .inl ⟨he, hk, ht.symm⟩
  · rw [State.clearByte_of_ge (by omega)] at h
    simp only [Host.Outcome.next.injEq] at h
    exact .inr ⟨by omega, h.symm⟩

/-! ## Turns -/

theorem State.takeTurn_nil {s : State} (h : s.events = []) : s.takeTurn = (.host, s) := by
  simp [State.takeTurn, h]

theorem State.takeTurn_cons {s : State} {e : Event} {es : List Event} (h : s.events = e :: es) :
    s.takeTurn = (e, s.setEvents es) := by
  simp [State.takeTurn, h]

end Sys2Proof.Machine
end

