-- ==== Sys2Proof/Laws/Legal.lean ====
section
/-! SUPPORT. What a legal state guarantees, and that each shared update keeps a state legal. -/

namespace Sys2Proof.Machine

namespace Legal

variable {s : State}

/-! ## What a legal state guarantees -/

/-- Every index below L holds a byte. -/
theorem readable (h : Legal s) (he : s.bufExists = true) {a : Nat} (ha : a < s.len) : ∃ b, s.holds a b := by
  have hm : a ∈ s.buf.map Prod.fst := by rw [h.indices he]; exact List.mem_range.mpr ha
  obtain ⟨b, hb⟩ := Option.isSome_iff_exists.mp ((Memory.read_isSome s.buf a).mpr hm)
  exact ⟨b, by rw [State.holds, State.memRead_eq, if_pos ⟨he, ha⟩, hb]⟩

/-- L is at most 32767. -/
theorem len_le (h : Legal s) : s.len ≤ 32767 := by
  have := h.count
  have hn : Config.nmax = 10921 := rfl
  rw [State.len]; omega

/-- An Active cursor is an index of the buffer, and the buffer exists. -/
theorem active (h : Legal s) (ha : s.isIdle = false) : s.bufExists = true ∧ s.cur.toNat < s.len := by
  have hne : s.cur ≠ Config.idle := by
    intro hc
    rw [State.isIdle, State.handshake, hc] at ha
    exact absurd ha (by decide)
  refine ⟨?_, h.cursor.resolve_left hne⟩
  cases he : s.bufExists with
  | true => rfl
  | false => exact absurd (h.absent he).2.2.1 hne

/-- An Idle cursor is the idle sentinel. -/
theorem idle (h : Legal s) (hi : s.isIdle = true) : s.cur = Config.idle := by
  refine h.cursor.resolve_right fun hlt => ?_
  have hl := h.len_le
  rw [State.isIdle, State.handshake, BitVec.getLsbD, Nat.testBit, Nat.shiftRight_eq_div_pow,
    Nat.div_eq_of_lt (by omega)] at hi
  exact absurd hi (by decide)

/-- Of a list of pairs with the indices `base`, `base + 1`, ..., the byte at `base + a` is byte `a` of the list. -/
theorem read_of_range' {m : Memory} {base n : Nat} (h : m.map Prod.fst = List.range' base n) (a : Nat) :
    Memory.read m (base + a) = (m.map Prod.snd)[a]? := by
  induction m generalizing base n a with
  | nil => simp
  | cons cell m ih =>
    obtain ⟨b, v⟩ := cell
    cases n with
    | zero => simp at h
    | succ n =>
      rw [List.map_cons, List.range'_succ, List.cons.injEq] at h
      obtain ⟨rfl, hm⟩ := h
      cases a with
      | zero => simp
      | succ a => simpa [Nat.add_assoc, Nat.add_comm 1 a] using ih hm a

/-- Byte `a` of the content is the byte at index `a`. -/
theorem content_get (h : Legal s) (he : s.bufExists = true) (a : Nat) : s.content[a]? = s.memRead a := by
  have hi := h.indices he
  rw [List.range_eq_range'] at hi
  have hr := read_of_range' hi a
  rw [Nat.zero_add] at hr
  have hl : s.content.length = s.len := by
    have := congrArg List.length hi
    simpa [State.content] using this
  rw [State.memRead_eq, State.content, ← hr]
  split
  · rfl
  · next hn =>
    rw [hr]
    exact List.getElem?_eq_none (by rw [State.content] at hl; rw [hl]; exact Nat.not_lt.mp fun hlt => hn ⟨he, hlt⟩)

/-- The content has L bytes. -/
theorem content_length (h : Legal s) (he : s.bufExists = true) : s.content.length = s.len := by
  have := congrArg List.length (h.indices he)
  simpa [State.content] using this

/-! ## Updates that keep a state legal -/

/-- A legal position of the sequencer stays legal where a buffer of the same size exists and the handler is no less
enabled. -/
theorem legal_mono {t : State} {q : Sequencer} (he : s.bufExists = true → t.bufExists = true)
    (hen : s.en = true → t.en = true) (hl : t.leds = s.leds) (h : q.legal s) : q.legal t := by
  cases q with
  | idle => trivial
  | setColor slot colour next => exact ⟨he h.1, hl ▸ h.2.1, h.2.2⟩
  | clear next => exact ⟨he h.1, hl ▸ h.2⟩
  | init next => exact ⟨he h.1, hen h.2.1, hl ▸ h.2.2⟩
  | refresh => exact he h

/-- The model's own fields play no part. -/
theorem outside (h : Legal s) (r : List Value) (d : Nat) (p : List Command) (es : List Event) :
    Legal { s with returned := r, draws := d, program := p, events := es } :=
  ⟨h.absent, h.canonical, h.indices, h.count, h.latch, h.cursor, h.silent, h.output,
    legal_mono (s := s) id id rfl h.sequencer⟩

theorem setEvents (h : Legal s) (es : List Event) : Legal (s.setEvents es) := h.outside s.returned s.draws s.program es

theorem setProgram (h : Legal s) (ws : List Command) : Legal (s.setProgram ws) :=
  h.outside s.returned s.draws ws s.events

theorem give (h : Legal s) (v : Value) : Legal (s.give v) := h.outside (s.returned ++ [v]) s.draws s.program s.events

/-- Moving the sequencer to a position that is legal there. -/
theorem setSeq (h : Legal s) (he : s.bufExists = true) {q : Sequencer} (hq : q.legal s) : Legal (s.setSeq q) :=
  ⟨fun ha => absurd (he.symm.trans ha) (by decide), h.canonical, h.indices, h.count, h.latch, h.cursor, h.silent,
    h.output, legal_mono (s := s) id id rfl hq⟩

/-- The begin step. -/
theorem beginStep (h : Legal s) (he : s.bufExists = true) : Legal s.beginStep := by
  obtain ⟨_, hs⟩ | ⟨_, hs⟩ := s.beginStep_cases <;> rw [hs]
  · exact ⟨fun ha => absurd (he.symm.trans ha) (by decide), h.canonical, h.indices, h.count, h.latch,
      .inr (Nat.lt_of_lt_of_le (by decide : 0 < 4) (Nat.le_add_right 4 _)), h.silent, h.output, legal_mono (s := s) id id rfl h.sequencer⟩
  · exact h

/-- Enabling the handler. -/
theorem enable (h : Legal s) (he : s.bufExists = true) : Legal s.enable :=
  ⟨fun ha => absurd (he.symm.trans ha) (by decide), h.canonical, h.indices, h.count, h.latch, h.cursor,
    fun hen => absurd (show true = false from hen) (by decide), h.output,
    legal_mono (s := s) (t := s.enable) id (fun _ => rfl) rfl h.sequencer⟩

/-- Writing a byte of the LED region. -/
theorem write (h : Legal s) (he : s.bufExists = true) {a : Nat} (ha : a < 3 * s.leds) (v : Byte) :
    Legal (s.setBuf (Memory.write s.buf a v)) := by
  have hlen : a < s.len := by rw [State.len]; omega
  have hr (c : Nat) (hc : 3 * s.leds ≤ c) :
      (s.setBuf (Memory.write s.buf a v)).memRead c = s.memRead c := by
    rw [State.memRead_setBuf_write he hlen, if_neg (by omega)]
  refine ⟨fun hf => absurd (he.symm.trans hf) (by decide), Memory.write_wf a v h.canonical, fun _ => ?_, h.count,
    fun _ => ?_, h.cursor, h.silent, h.output, legal_mono (s := s) id id rfl h.sequencer⟩
  · have hm : a ∈ s.buf.map Prod.fst := by rw [h.indices he]; exact List.mem_range.mpr hlen
    exact (Memory.write_indices a v h.canonical hm).trans (h.indices he)
  · obtain ⟨h0, h1, h2, h3⟩ := h.latch he
    exact ⟨(hr _ (Nat.le_refl _)).trans h0, (hr _ (Nat.le_add_right _ _)).trans h1,
      (hr _ (Nat.le_add_right _ _)).trans h2, (hr _ (Nat.le_add_right _ _)).trans h3⟩

/-- Emitting a byte while the handler is on. -/
theorem emit (h : Legal s) (hen : s.en = true) (b : Byte) : Legal (s.emit b) :=
  ⟨fun ha => absurd (hen.symm.trans (h.absent ha).2.1) (by decide), h.canonical, h.indices, h.count, h.latch,
    h.cursor, fun hf => absurd (hen.symm.trans hf) (by decide), fun _ => by simp,
    legal_mono (s := s) id id rfl h.sequencer⟩

/-- Moving an Active cursor on. -/
theorem advance (h : Legal s) (ha : s.isIdle = false) : Legal s.advance := by
  obtain ⟨he, hlt⟩ := h.active ha
  have hl := h.len_le
  have hc : s.advance.cur = Config.idle ∨ s.advance.cur.toNat < s.len := by
    obtain ⟨_, hs⟩ | ⟨hne, hs⟩ := s.advance_cases <;> rw [hs, State.setCur_cur]
    · exact .inl rfl
    · have : (s.cur + 1#16).toNat = s.cur.toNat + 1 := by
        simp only [BitVec.toNat_add, BitVec.reduceToNat]; omega
      exact .inr (by omega)
  have hs : s.advance = s.setCur s.advance.cur := rfl
  rw [hs]
  exact ⟨fun hf => absurd (he.symm.trans hf) (by decide), h.canonical, h.indices, h.count, h.latch, hc, h.silent,
    h.output, legal_mono (s := s) id id rfl h.sequencer⟩

/-- What CONSTRUCT makes. -/
theorem construct (h : Legal s) (he : s.bufExists = false) {n : Nat} (hn : n ≤ Config.nmax) : Legal (s.construct n) := by
  obtain ⟨_, hen, _, hseq⟩ := h.absent he
  have hc : Config.nmax = 10921 := rfl
  have hleds : (s.construct n).leds = n := by
    rw [State.leds, State.construct_ledCount, BitVec.toNat_ofNat, Nat.mod_eq_of_lt (by omega)]
  have hlen : (s.construct n).len = 4 + 3 * n := by rw [State.len, hleds]
  have hr (k : Nat) (hk : k < 4) : (s.construct n).memRead (3 * n + k) = Config.latch[k]? := by
    rw [State.memRead_eq, if_pos ⟨rfl, by omega⟩, State.construct_buf, Memory.read_fresh, if_neg (by omega)]
    congr 1; omega
  refine ⟨fun hf => (by cases hf), Memory.fresh_wf _ _, fun _ => ?_, by omega, fun _ => ?_, .inl rfl, h.silent,
    h.output, ?_⟩
  · rw [hlen]; exact Memory.fresh_indices _ _
  · rw [State.latched, hleds]
    exact ⟨hr 0 (by omega), hr 1 (by omega), hr 2 (by omega), hr 3 (by omega)⟩
  · rw [State.construct_seq, hseq]; trivial

end Legal

end Sys2Proof.Machine
end

