-- ==== Sys2Proof/Laws/PerInstr.lean ====
section
/-! SUPPORT. Statements made per instruction, one lemma per constructor of Instr. -/

namespace Sys2Proof.Laws.OpcodeRow

/-- A host operation's command word selects its own row of the opcode map (spec/30_encoding.md R64); TICK has no
command word (R66). -/
def Statement (i : Instr) : Prop :=
  match encode i with
  | .pulse => i = .tick
  | .command w => ∃ r ∈ opcodeMap, r.mnemonic = i.mnemonic ∧ w &&& r.mask = r.pattern

/-- For a word with operand fields the mask keeps: the fields masked one by one. -/
theorem of_fields {op : BitVec 8} {index : BitVec 16} {data : BitVec 32} {m p : Command}
    (h : commandWord (op &&& opField m) (index &&& indexField m) (data &&& dataField m) = p) :
    commandWord op index data &&& m = p := by
  rw [commandWord_and, h]

theorem construct (count : Int) : Statement (.construct count) := by
  refine ⟨⟨"CONSTRUCT", 0xFFFF0000FFFFFFFF#64, 0x0100000000000000#64⟩, by decide, rfl, of_fields ?_⟩
  simp [opField, indexField, dataField, commandWord]

theorem init : Statement .init :=
  ⟨⟨"INIT", 0xFFFFFFFFFFFFFFFF#64, 0x0200000000000000#64⟩, by decide, rfl, by decide⟩

theorem setColor (index : Int) (colour : Value) : Statement (.setColor index colour) := by
  refine ⟨⟨"SETCOLOR", 0xFFFF000000000000#64, 0x0300000000000000#64⟩, by decide, rfl, of_fields ?_⟩
  simp [opField, indexField, dataField, commandWord]

theorem getColor (index : Int) : Statement (.getColor index) := by
  refine ⟨⟨"GETCOLOR", 0xFFFF0000FFFFFFFF#64, 0x0400000000000000#64⟩, by decide, rfl, of_fields ?_⟩
  simp [opField, indexField, dataField, commandWord]

theorem clear : Statement .clear :=
  ⟨⟨"CLEAR", 0xFFFFFFFFFFFFFFFF#64, 0x0500000000000000#64⟩, by decide, rfl, by decide⟩

theorem beginTransfer : Statement .beginTransfer :=
  ⟨⟨"BEGIN", 0xFFFFFFFFFFFFFFFF#64, 0x0600000000000000#64⟩, by decide, rfl, by decide⟩

theorem isDone : Statement .isDone :=
  ⟨⟨"ISDONE", 0xFFFFFFFFFFFFFFFF#64, 0x0700000000000000#64⟩, by decide, rfl, by decide⟩

theorem refresh : Statement .refresh :=
  ⟨⟨"REFRESH", 0xFFFFFFFFFFFFFFFF#64, 0x0800000000000000#64⟩, by decide, rfl, by decide⟩

theorem pack (red green blue : Byte) : Statement (.pack red green blue) := by
  refine ⟨⟨"PACK", 0xFFFFFFFFFF000000#64, 0x0900000000000000#64⟩, by decide, rfl, of_fields ?_⟩
  have h : dataField 0xFFFFFFFFFF000000#64 = 0xFF000000#32 := by decide
  rw [h, packOperand_high]
  simp [opField, indexField, commandWord]

theorem peek (index : Int) : Statement (.peek index) := by
  refine ⟨⟨"PEEK", 0xFFFF0000FFFFFFFF#64, 0x0A00000000000000#64⟩, by decide, rfl, of_fields ?_⟩
  simp [opField, indexField, dataField, commandWord]

theorem tick : Statement .tick := rfl

end Sys2Proof.Laws.OpcodeRow
end

