-- ==== Sys2Proof/Laws/Step.lean ====
section
/-! SUPPORT. All that one move can do: the inversion laws of a HOST move and of a step, from which every invariant is
derived. -/

namespace Sys2Proof.Machine

/-- All that a HOST move, the first micro-step of an operation or a later one, can do to the state. -/
inductive HostEffect (s : State) : State → Prop
  /-- Nothing but hand back values. -/
  | gives (r : List Value) : HostEffect s { s with returned := r }
  /-- Nothing but move the sequencer. -/
  | moves (q : Sequencer) (he : s.bufExists = true) (hq : q.legal s) : HostEffect s (s.setSeq q)
  /-- A begin step. -/
  | begins (q : Sequencer) (he : s.bufExists = true) (hq : q.legal s) : HostEffect s (s.beginStep.setSeq q)
  /-- One byte write in the LED region. -/
  | writes (a : Nat) (v : Byte) (q : Sequencer) (he : s.bufExists = true) (ha : a < 3 * s.leds) (hq : q.legal s) :
      HostEffect s ((s.setBuf (Memory.write s.buf a v)).setSeq q)
  /-- The first micro-step of INIT. -/
  | enables (he : s.bufExists = true) (hen : s.en = false) : HostEffect s (s.enable.setSeq (.init 0))
  /-- An accepted CONSTRUCT. -/
  | constructs (n : Nat) (he : s.bufExists = false) (hn : n ≤ Config.nmax) : HostEffect s (s.construct n)

/-- The write of a byte of SETCOLOR on an accepted slot, as a HOST effect. -/
theorem writeSlotByte_effect {s t : State} {slot : Nat} {colour : Value} {k : Fin 3} (hs : slot < s.leds)
    (hc : colour.toNat ≤ Config.clampTo.toNat) (h : s.writeSlotByte slot colour k = .next t) : HostEffect s t := by
  obtain ⟨he, _, rfl⟩ := State.writeSlotByte_eq_next h
  refine .writes _ _ _ he (slotAddr_lt hs k) ?_
  match k with
  | 0 => exact ⟨he, hs, hc⟩
  | 1 => exact ⟨he, hs, hc⟩
  | 2 => trivial

/-- A micro-step of CLEAR's kind, as a HOST effect, when its next position is legal. -/
theorem clearByte_effect {s t : State} {running : Nat → Sequencer} {k : Nat} (he : s.bufExists = true)
    (hq : ∀ j, j ≤ 3 * s.leds → (running j).legal s) (h : s.clearByte running k = .next t) : HostEffect s t := by
  obtain ⟨_, hk, rfl⟩ | ⟨_, rfl⟩ := State.clearByte_eq_next h
  · exact .writes _ _ _ he hk (hq _ (by omega))
  · exact .begins _ he trivial

/-- All that a host operation can do in its first micro-step. -/
theorem exec_effect {s t : State} {i : Instr} (hseq : s.seq.legal s) (hi : i ≠ .tick) (h : exec i s = .next t) :
    HostEffect s t := by
  cases i with
  | tick => exact absurd rfl hi
  | construct n =>
    simp only [exec, execConstruct] at h
    cases he : s.bufExists with
    | true => simp [he] at h; subst h; exact .gives s.returned
    | false =>
      simp only [he, Bool.false_eq_true, if_false] at h
      split at h
      · cases h
      · next m hm =>
        simp only [Host.Outcome.next.injEq] at h
        subst h
        exact .constructs m he (countOf_eq_some.mp hm).2.2
  | pack r g b =>
    simp only [exec, execPack, Host.Outcome.next.injEq] at h
    subst h; exact .gives _
  | setColor index colour =>
    obtain ⟨he, h⟩ := State.needBuffer_eq_next.mp h
    split at h
    · simp only [Host.Outcome.next.injEq] at h; subst h; exact .gives s.returned
    · next slot hs => exact writeSlotByte_effect (State.slotOf_eq_some.mp hs).2.2 (clampColour_le colour) h
  | getColor index =>
    obtain ⟨he, h⟩ := State.needBuffer_eq_next.mp h
    split at h
    · simp only [Host.Outcome.next.injEq] at h; subst h; exact .gives _
    · obtain ⟨_, _, h⟩ := State.readThen_eq_next.mp h
      obtain ⟨_, _, h⟩ := State.readThen_eq_next.mp h
      obtain ⟨_, _, h⟩ := State.readThen_eq_next.mp h
      simp only [Host.Outcome.next.injEq] at h; subst h; exact .gives _
  | peek index =>
    obtain ⟨he, h⟩ := State.needBuffer_eq_next.mp h
    split at h
    · cases h
    · obtain ⟨_, _, h⟩ := State.readThen_eq_next.mp h
      simp only [Host.Outcome.next.injEq] at h; subst h; exact .gives _
  | clear =>
    obtain ⟨he, h⟩ := State.needBuffer_eq_next.mp h
    exact clearByte_effect (running := .clear) he (fun j hj => ⟨he, hj⟩) h
  | beginTransfer =>
    obtain ⟨he, h⟩ := State.needBuffer_eq_next.mp h
    simp only [Host.Outcome.next.injEq] at h
    have hs : s.beginStep = s.beginStep.setSeq s.seq := by
      obtain ⟨_, hb⟩ | ⟨_, hb⟩ := s.beginStep_cases <;> rw [hb] <;> rfl
    rw [← h, hs]; exact .begins _ he hseq
  | isDone =>
    obtain ⟨he, h⟩ := State.needBuffer_eq_next.mp h
    simp only [Host.Outcome.next.injEq] at h; subst h; exact .gives _
  | refresh =>
    obtain ⟨he, h⟩ := State.needBuffer_eq_next.mp h
    simp only [Host.Outcome.next.injEq] at h; subst h; exact .begins _ he he
  | init =>
    obtain ⟨he, h⟩ := State.needBuffer_eq_next.mp h
    cases hen : s.en with
    | true => simp [hen] at h
    | false =>
      simp only [hen, Bool.false_eq_true, if_false, Host.Outcome.next.injEq] at h
      subst h; exact .enables he hen

/-- All that a later micro-step can do. -/
theorem microStep_effect {s t : State} (hseq : s.seq.legal s) (h : microStep s = .next t) : HostEffect s t := by
  rw [microStep] at h
  cases hq : s.seq with
  | idle => simp only [hq, Host.Outcome.next.injEq] at h; subst h; exact .gives s.returned
  | setColor slot colour next =>
    rw [hq] at hseq h
    exact writeSlotByte_effect hseq.2.1 hseq.2.2 h
  | clear next =>
    rw [hq] at hseq h
    exact clearByte_effect (running := .clear) hseq.1 (fun j hj => ⟨hseq.1, hj⟩) h
  | init next =>
    rw [hq] at hseq h
    exact clearByte_effect (running := .init) hseq.1 (fun j hj => ⟨hseq.1, hseq.2.1, hj⟩) h
  | refresh =>
    rw [hq] at hseq h
    simp only [Host.Outcome.next.injEq] at h
    subst h
    obtain ⟨_, hp⟩ | ⟨_, hp⟩ := s.poll_cases <;> rw [hp]
    · exact .moves _ hseq trivial
    · exact .moves _ hseq hseq

/-- A HOST effect keeps a legal state legal. -/
theorem HostEffect.keeps {s t : State} (e : HostEffect s t) (h : Legal s) : Legal t := by
  cases e with
  | gives r => exact h.outside r s.draws s.program s.events
  | moves q he hq => exact h.setSeq he hq
  | begins q he hq =>
    refine (h.beginStep he).setSeq ?_ (Legal.legal_mono (s := s) ?_ ?_ ?_ hq) <;>
      obtain ⟨_, hb⟩ | ⟨_, hb⟩ := s.beginStep_cases <;> rw [hb] <;>
      first | exact he | exact id | rfl
  | writes a v q he ha hq =>
    exact (h.write he ha v).setSeq he
      (Legal.legal_mono (s := s) (t := s.setBuf (Memory.write s.buf a v)) id id rfl hq)
  | enables he hen => exact (h.enable he).setSeq he ⟨he, rfl, Nat.zero_le _⟩
  | constructs n he hn => exact h.construct he hn

/-- The state in which HOST's move is made: the move, and for a new operation its command word, taken. -/
theorem hostTurn_cases {s t : State} (h : hostTurn s = .next t) :
    (s.seq = .idle ∧ s.program = [] ∧ t = s) ∨
    (s.seq = .idle ∧ ∃ w ws i, s.program = w :: ws ∧ decode (.command w) = .ok i ∧ exec i (s.setProgram ws) = .next t) ∨
    (s.seq ≠ .idle ∧ microStep s = .next t) := by
  rw [hostTurn] at h
  by_cases hq : s.seq = .idle
  · simp only [State.cmdReady, hq, decide_true, if_true] at h
    cases hp : s.program with
    | nil =>
      simp only [State.fetch, hp, Host.Outcome.next.injEq] at h
      exact .inl ⟨hq, rfl, h.symm⟩
    | cons w ws =>
      simp only [State.fetch, hp] at h
      cases hd : decode (.command w) with
      | error r => simp [hd] at h
      | ok i => simp only [hd] at h; exact .inr (.inl ⟨hq, w, ws, i, rfl, hd, h⟩)
  · simp only [State.cmdReady, hq, decide_false, Bool.false_eq_true, if_false] at h
    exact .inr (.inr ⟨hq, h⟩)

/-- No command word decodes to TICK (R66). -/
theorem decode_command_ne_tick {w : Command} {i : Instr} (h : decode (.command w) = .ok i) : i ≠ .tick := by
  rintro rfl
  simp only [decode, decodeCommand] at h
  split at h
  · cases h
  · simp only [decodeFields] at h
    split at h <;> try simp only [ifZero] at h
    all_goals (repeat' split at h) <;> cases h

/-- All that HOST's turn can do from a legal state: it keeps the program or takes its first word, and then one
HOST effect. -/
theorem hostTurn_effect {s t : State} (hseq : s.seq.legal s) (h : hostTurn s = .next t) :
    ∃ ws, HostEffect (s.setProgram ws) t := by
  obtain ⟨_, _, rfl⟩ | ⟨_, w, ws, i, _, hd, h⟩ | ⟨_, h⟩ := hostTurn_cases h
  · exact ⟨t.program, .gives t.returned⟩
  · exact ⟨ws, exec_effect (Legal.legal_mono (s := s) (t := s.setProgram ws) id id rfl hseq)
      (decode_command_ne_tick hd) h⟩
  · exact ⟨s.program, microStep_effect hseq h⟩

/-- All that a step can be. -/
theorem step_cases {s t : State} (h : step s = .next t) :
    (∃ es, s.events = .tick :: es ∧ exec .tick (s.setEvents es) = .next t) ∨
    (∃ es, s.events = .reset :: es ∧ t = (s.setEvents es).powerOn) ∨
    ((s.events = [] ∨ ∃ es, s.events = .host :: es) ∧ hostTurn (s.setEvents s.events.tail) = .next t) := by
  rw [step] at h
  cases hev : s.events with
  | nil =>
    rw [State.takeTurn_nil hev] at h
    refine .inr (.inr ⟨.inl rfl, ?_⟩)
    rw [List.tail_nil, ← hev, State.setEvents_events_self]; exact h
  | cons e es =>
    rw [State.takeTurn_cons hev] at h
    cases e with
    | tick => exact .inl ⟨es, rfl, h⟩
    | reset =>
      simp only [Host.Outcome.next.injEq] at h
      exact .inr (.inl ⟨es, rfl, h.symm⟩)
    | host => exact .inr (.inr ⟨.inr ⟨es, rfl⟩, h⟩)

end Sys2Proof.Machine
end

