-- ==== Sys2Proof/Tests/Slice0.lean ====
section
/-! SUPPORT. The model's own tests: well-formedness, decoding, one step per operation, and, for every statement with
hypotheses, a state and operands that meet them. Expected results are the vectors of spec/95_test_vectors.md. -/

namespace Sys2Proof.Tests

open Sys2Proof.Machine

/-! ## Helpers -/

/-- The block of vectors V23 to V29: N = 1, buffer AA BB CC 7F FF FF 80, no operation running. -/
def sample (en : Bool) (cur : CursorWord) : State :=
  { State.reset with
    bufExists := true
    en := en
    ledCount := 1#16
    buf := [(0, 0xAA#8), (1, 0xBB#8), (2, 0xCC#8), (3, 0x7F#8), (4, 0xFF#8), (5, 0xFF#8), (6, 0x80#8)]
    cur := cur }

/-- `sample` with an operation in the sequencer, HOST's program and the run order set. -/
def playing (en : Bool) (cur : CursorWord) (q : Sequencer) (ws : List Command) (es : List Event) : State :=
  { sample en cur with seq := q, program := ws, events := es }

/-- `sample` with the LED bytes zero. -/
def darkSample (cur : CursorWord) : State :=
  { sample true cur with
    buf := [(0, 0x00#8), (1, 0x00#8), (2, 0x00#8), (3, 0x7F#8), (4, 0xFF#8), (5, 0xFF#8), (6, 0x80#8)] }

/-- The empty strip of vectors V2, V18, V30: N = 0, buffer 7F FF FF 80. -/
def emptySample : State :=
  { State.reset with
    bufExists := true
    en := true
    buf := [(0, 0x7F#8), (1, 0xFF#8), (2, 0xFF#8), (3, 0x80#8)] }

/-- A result is a next state with a property. -/
def after (r : Result) (f : State → Bool) : Bool :=
  match r with
  | .next t => f t
  | .fault _ => false
  | .refused _ => false

/-- A result is a refusal for a reason. -/
def refusedAs (r : Result) (reason : Refusal) : Bool :=
  match r with
  | .next _ => false
  | .fault _ => false
  | .refused x => decide (x = reason)

/-- A stimulus decodes to an operation. -/
def decodesTo (p : Stimulus) (i : Instr) : Bool :=
  match decode p with
  | .ok j => decide (j = i)
  | .error _ => false

/-- A command word is invalid for a reason. -/
def rejectedAs (w : Command) (reason : Reject) : Bool :=
  match decodeCommand w with
  | .ok _ => false
  | .error x => decide (x = reason)

/-- A state with the buffer of `sample` is legal where its cursor and sequencer are. -/
theorem playing_legal (en : Bool) {cur : CursorWord} (hc : cur = Config.idle ∨ cur.toNat < 7) {q : Sequencer}
    (ws : List Command) (es : List Event) (hq : q.legal (sample en cur)) : Legal (playing en cur q ws es) where
  absent h := by cases h
  canonical := rfl
  indices _ := rfl
  count := by show 1 ≤ 10921; decide
  latch _ := ⟨rfl, rfl, rfl, rfl⟩
  cursor := hc
  silent _ := ⟨rfl, rfl⟩
  output h := absurd rfl h
  sequencer := Legal.legal_mono (s := sample en cur) id id rfl hq

theorem darkSample_legal : Legal (darkSample 0#16) where
  absent h := by cases h
  canonical := rfl
  indices _ := rfl
  count := by show 1 ≤ 10921; decide
  latch _ := ⟨rfl, rfl, rfl, rfl⟩
  cursor := .inr (by decide)
  silent _ := ⟨rfl, rfl⟩
  output h := absurd rfl h
  sequencer := trivial

/-! ## Well-formedness (R63): each range check refuses a value just outside -/

theorem test_wf_construct_above : (Instr.construct 32768).wellFormed = false := by decide
theorem test_wf_setColor_below : (Instr.setColor (-32769) 0#32).wellFormed = false := by decide
theorem test_wf_getColor_above : (Instr.getColor 32768).wellFormed = false := by decide
theorem test_wf_peek_below : (Instr.peek (-32769)).wellFormed = false := by decide
theorem test_wf_bounds_admitted :
    (Instr.construct (-32768)).wellFormed = true ∧ (Instr.setColor 32767 0xFFFFFFFF#32).wellFormed = true := by decide

/-! ## Decoding: the words of V49 and of the programs, each field written from R61, R62, R64 -/

theorem test_decode_construct : decodesTo (.command (0x01#8 ++ 0x00#8 ++ 0x0003#16 ++ 0x00000000#32)) (.construct 3) = true := by
  decide
theorem test_decode_init : decodesTo (.command 0x0200000000000000#64) .init = true := by decide
theorem test_decode_setColor :
    decodesTo (.command (0x03#8 ++ 0x00#8 ++ 0x0001#16 ++ 0x00010203#32)) (.setColor 1 0x010203#32) = true := by decide
theorem test_decode_setColor_negative :
    decodesTo (.command 0x0300FFFFFFFFFFFF#64) (.setColor (-1) 0xFFFFFFFF#32) = true := by decide
theorem test_decode_getColor : decodesTo (.command 0x0400000100000000#64) (.getColor 1) = true := by decide
theorem test_decode_clear : decodesTo (.command 0x0500000000000000#64) .clear = true := by decide
theorem test_decode_begin : decodesTo (.command 0x0600000000000000#64) .beginTransfer = true := by decide
theorem test_decode_isDone : decodesTo (.command 0x0700000000000000#64) .isDone = true := by decide
theorem test_decode_refresh : decodesTo (.command 0x0800000000000000#64) .refresh = true := by decide
/-- V44: red is the highest of the three bytes of PACK's operand. -/
theorem test_decode_pack :
    decodesTo (.command 0x0900000000112233#64) (.pack 0x11#8 0x22#8 0x33#8) = true := by decide
theorem test_decode_peek : decodesTo (.command 0x0A00FFFF00000000#64) (.peek (-1)) = true := by decide
theorem test_decode_tick : decodeTableWord 1 1 = some .tick ∧ decodeTableWord 8 1 = some .tick := by decide
theorem test_decode_table_word : decodeTableWord 64 0x0A00000C00000000 = some (.peek 12) := by decide

/-- V50. -/
theorem test_decode_invalid :
    rejectedAs 0x0000000000000000#64 .unassignedOp = true ∧
    rejectedAs 0x0B00000000000000#64 .unassignedOp = true ∧
    rejectedAs 0xFF00000000000000#64 .unassignedOp = true ∧
    rejectedAs 0x0101000300000000#64 .zeroFieldSet = true ∧
    rejectedAs 0x0200000000000001#64 .dataFieldSet = true ∧
    rejectedAs 0x0400000100000001#64 .dataFieldSet = true ∧
    rejectedAs 0x0600000100000000#64 .indexFieldSet = true ∧
    rejectedAs 0x0900000001000000#64 .dataFieldSet = true := by decide

/-- The words of P4's steps 11 and 12, from the encoder. -/
theorem test_encode_setColor :
    encode (.setColor 3 0x0A0B0C#32) = .command 0x03000003000A0B0C#64 ∧
    encode (.setColor (-1) 0x0A0B0C#32) = .command 0x0300FFFF000A0B0C#64 := by decide

/-! ## One step per operation -/

/-- V1. -/
theorem test_construct_latch :
    after (exec (.construct 3) State.reset) (fun t => t.bufExists && t.len == 13 && !t.en && t.cur == 0xFFFF#16 &&
      t.memRead 9 == some 0x7F#8 && t.memRead 10 == some 0xFF#8 && t.memRead 11 == some 0xFF#8 &&
      t.memRead 12 == some 0x80#8 && t.memRead 13 == none) = true := by decide

/-- V4. -/
theorem test_construct_out_of_range :
    refusedAs (exec (.construct 10922) State.reset) .ledCountOutOfRange = true ∧
    refusedAs (exec (.construct (-1)) State.reset) .ledCountOutOfRange = true := by decide

/-- V41, the first micro-step: the handler is on before the first byte is zeroed. -/
theorem test_init_enables :
    after (exec .init (sample false 0xFFFF#16)) (fun t => t.en && t.seq == .init 0 && t.memRead 0 == some 0xAA#8) = true := by
  decide

/-- V43. -/
theorem test_init_refused :
    refusedAs (exec .init State.reset) .noStripBuffer = true ∧
    refusedAs (exec .init (sample true 0xFFFF#16)) .alreadyInitialised = true := by decide

/-- V6 and V11: the first byte of a slot, and the clamp's unsigned comparison. -/
theorem test_setColor_first_byte :
    after (exec (.setColor 0 0x112233#32) (sample true 0xFFFF#16))
      (fun t => t.memRead 0 == some 0x11#8 && t.memRead 1 == some 0xBB#8 && t.seq == .setColor 0 0x112233#32 1) = true ∧
    after (exec (.setColor 0 0x80000000#32) (sample true 0xFFFF#16))
      (fun t => t.memRead 0 == some 0xFF#8 && t.seq == .setColor 0 0xFFFFFE#32 1) = true := by decide

/-- V6, its last byte write. -/
theorem test_setColor_last_byte :
    after (microStep { sample true 0xFFFF#16 with seq := .setColor 0 0x112233#32 2 })
      (fun t => t.memRead 2 == some 0x33#8 && t.memRead 3 == some 0x7F#8 && t.seq == .idle) = true := by decide

/-- V13's reading: byte 0 highest. -/
theorem test_getColor_value :
    after (exec (.getColor 0) (sample true 0xFFFF#16)) (fun t => t.returned == [0x00AABBCC#32]) = true := by decide

/-- V14. -/
theorem test_getColor_out_of_range :
    after (exec (.getColor 1) (sample true 0xFFFF#16)) (fun t => t.returned == [0#32]) = true ∧
    after (exec (.getColor 0) emptySample) (fun t => t.returned == [0#32]) = true := by decide

/-- V18: with no LED the first micro-step is the begin step. -/
theorem test_clear_empty_strip :
    after (exec .clear emptySample) (fun t => t.cur == 0#16 && t.seq == .idle && t.buf == emptySample.buf) = true := by
  decide

/-- V17 and V19, the last micro-step: it arms a transfer only when Idle. -/
theorem test_clear_last_micro_step :
    after (microStep { sample true 0xFFFF#16 with seq := .clear 3 }) (fun t => t.cur == 0#16 && t.seq == .idle) = true ∧
    after (microStep { sample true 4#16 with seq := .clear 3 }) (fun t => t.cur == 4#16 && t.seq == .idle) = true := by
  decide

/-- V25, V26. -/
theorem test_begin :
    after (exec .beginTransfer (sample true 0xFFFF#16)) (fun t => t.cur == 0#16) = true ∧
    after (exec .beginTransfer (sample true 6#16)) (fun t => t.cur == 6#16) = true := by decide

/-- V28. -/
theorem test_isDone :
    after (exec .isDone (sample true 0xFFFF#16)) (fun t => t.returned == [1#32]) = true ∧
    after (exec .isDone (sample true 0#16)) (fun t => t.returned == [0#32]) = true ∧
    after (exec .isDone (sample true 6#16)) (fun t => t.returned == [0#32]) = true := by decide

/-- V34, the begin step while Active. -/
theorem test_refresh_while_active :
    after (exec .refresh (sample true 5#16)) (fun t => t.cur == 5#16 && t.seq == .refresh) = true := by decide

/-- V32: polls. -/
theorem test_refresh_polls :
    after (microStep { sample true 2#16 with seq := .refresh }) (fun t => t.seq == .refresh) = true ∧
    after (microStep { sample true 0xFFFF#16 with seq := .refresh }) (fun t => t.seq == .idle) = true := by decide

/-- V44, V46: before CONSTRUCT too. -/
theorem test_pack : after (exec (.pack 0x11#8 0x22#8 0x33#8) State.reset) (fun t => t.returned == [0x00223311#32]) = true := by
  decide

/-- V45. -/
theorem test_pack_components :
    packGBR 0#8 0#8 0xFF#8 = 0x000000FF#32 ∧ packGBR 0xFF#8 0#8 0#8 = 0x00FF0000#32 ∧
    packGBR 0#8 0xFF#8 0#8 = 0x0000FF00#32 := by decide

/-- V47's last byte, on one LED. -/
theorem test_peek : after (exec (.peek 6) (sample true 0xFFFF#16)) (fun t => t.returned == [0x00000080#32]) = true := by
  decide

/-- V48. -/
theorem test_peek_refused :
    refusedAs (exec (.peek 7) (sample true 0xFFFF#16)) .peekOutsideBuffer = true ∧
    refusedAs (exec (.peek (-1)) (sample true 0xFFFF#16)) .peekOutsideBuffer = true := by decide

/-- V23, V24. -/
theorem test_tick_active :
    after (exec .tick (sample true 2#16)) (fun t => t.out == 0xCC#8 && t.trace == [0xCC#8] && t.cur == 3#16) = true ∧
    after (exec .tick (sample true 6#16)) (fun t => t.out == 0x80#8 && t.trace == [0x80#8] && t.cur == 0xFFFF#16) = true := by
  decide

/-- V22, V21. -/
theorem test_tick_idle_or_disabled :
    after (exec .tick (sample true 0xFFFF#16)) (fun t => t.out == 0#8 && t.trace == [0#8] && t.cur == 0xFFFF#16) = true ∧
    after (exec .tick (sample false 0#16)) (fun t => t.trace == [] && t.cur == 0#16) = true := by decide

/-! ## One step of the machine -/

/-- A command word and a pulse as the first instruction after reset. -/
theorem test_step_from_reset :
    after (step (State.reset.withFetchWord 64 0x0100000000000000)) (fun t => t.bufExists && t.len == 4) = true ∧
    after (step (State.reset.withFetchWord 8 1)) (fun t => t.trace == [] && t.events == []) = true := by decide

/-- V50: an invalid word stops the run. -/
theorem test_step_invalid_word :
    refusedAs (step { State.reset with program := [0x0600000100000000#64] }) (.invalidCommandWord .indexFieldSet) = true := by
  decide

/-- R130. -/
theorem test_step_reset :
    after (step { sample true 3#16 with events := [.reset] }) (fun t => t == State.reset) = true := by decide

/-! ## Witnesses: the hypotheses of each statement are met together, each clause at a boundary value -/

theorem witness_EncodedInstructionDecodesToItself :
    (Instr.construct (-32768)).wellFormed = true ∧ (Instr.setColor 32767 0xFFFFFFFF#32).wellFormed = true ∧
    (Instr.pack 0xFF#8 0x00#8 0xFF#8).wellFormed = true ∧ Instr.tick.wellFormed = true := by decide

theorem witness_DecodedStimulusEncodesToItself :
    decode (.command 0x0A00FFFF00000000#64) = .ok (.peek (-1)) ∧ decode .pulse = .ok .tick := ⟨rfl, rfl⟩

theorem witness_DecoderFollowsTheOpcodeMap :
    OpcodeRow.mk "PACK" 0xFFFFFFFFFF000000#64 0x0900000000000000#64 ∈ opcodeMap ∧
    OpcodeRow.mk "CONSTRUCT" 0xFFFF0000FFFFFFFF#64 0x0100000000000000#64 ∈ opcodeMap := by decide

/-- One word for each way of being reserved. -/
theorem witness_ReservedWordsAreRefused :
    reservedWord 0x0000000000000000#64 ∧ reservedWord 0x0B00000000000000#64 ∧ reservedWord 0x0101000300000000#64 ∧
    reservedWord 0x0600000100000000#64 ∧ reservedWord 0x0200000000000001#64 ∧ reservedWord 0x0900000001000000#64 ∧
    { State.reset with program := [0x0B00000000000000#64] }.hostReady ∧
    (playing true 3#16 .idle [0x0B00000000000000#64] [.host, .tick]).hostReady :=
  ⟨.inl (by decide), .inr (.inl (by decide)), .inr (.inr (.inl (by decide))),
    .inr (.inr (.inr (.inl (by decide)))), .inr (.inr (.inr (.inr (.inl (by decide))))),
    .inr (.inr (.inr (.inr (.inr (by decide))))), ⟨rfl, .inl rfl⟩, ⟨rfl, .inr ⟨[.tick], rfl⟩⟩⟩

/-- The clauses with hypotheses: an operation that is refused, and both ends of the count's range. -/
theorem witness_ResetLeavesAnEmptyIdleBlock :
    (Instr.refresh ≠ .tick ∧ (∀ n, Instr.refresh ≠ .construct n) ∧ (∀ r g b, Instr.refresh ≠ .pack r g b)) ∧
    ((0 : Int) ≤ 0 ∧ (0 : Int) ≤ 10921) ∧ ((0 : Int) ≤ 10921 ∧ (10921 : Int) ≤ 10921) :=
  ⟨⟨by decide, nofun, nofun⟩, by decide, by decide⟩

/-- A timing event that ends a transfer: legal before, and the step answers a next state. -/
theorem witness_StepKeepsTheLegalStates :
    Legal (playing true 6#16 (.clear 3) [] [.tick]) ∧
    ∃ t, step (playing true 6#16 (.clear 3) [] [.tick]) = .next t :=
  ⟨playing_legal true (.inr (by decide)) [] _ ⟨rfl, by decide⟩, _, rfl⟩

theorem witness_LegalStatesNeverFault : Legal (playing true 6#16 (.setColor 0 0xFFFFFE#32 2) [] [.host]) :=
  playing_legal true (.inr (by decide)) [] _ ⟨rfl, by decide, by decide⟩

theorem witness_ResetInputStartsANewLife :
    (playing true 3#16 .refresh [0x0700000000000000#64] [.reset, .tick]).events = .reset :: [.tick] := rfl

theorem witness_StepRunsTheNextCommandWord :
    (playing true 3#16 .idle [0x0700000000000000#64] [.host, .tick]).hostReady ∧
    (playing true 3#16 .idle [0x0700000000000000#64] [.host, .tick]).program = 0x0700000000000000#64 :: [] ∧
    decode (.command 0x0700000000000000#64) = .ok .isDone :=
  ⟨⟨rfl, .inr ⟨_, rfl⟩⟩, rfl, rfl⟩

theorem witness_StepTakesATimingEventAtAnyPoint :
    (playing true 3#16 (.clear 2) [] [.tick, .host]).events = .tick :: [.host] ∧
    ∃ t, step (playing true 3#16 (.clear 2) [] [.tick, .host]) = .next t := ⟨rfl, _, rfl⟩

/-- A running operation with an event listed and with none, and a free HOST with nothing to do. -/
theorem witness_StepContinuesTheRunningOperation :
    (playing true 3#16 (.clear 2) [] [.host]).events = .host :: [] ∧
    (playing true 3#16 (.clear 2) [] [.host]).seq ≠ .idle ∧
    (∃ t, step (playing true 3#16 (.clear 2) [] [.host]) = .next t) ∧
    (playing true 3#16 .refresh [] []).events = [] ∧ (playing true 3#16 .refresh [] []).seq ≠ .idle ∧
    (playing true 3#16 .idle [] []).events = [] ∧ (playing true 3#16 .idle [] []).seq = .idle ∧
    (playing true 3#16 .idle [] []).program = [] :=
  ⟨rfl, by decide, ⟨_, rfl⟩, rfl, by decide, rfl, rfl, rfl⟩

theorem witness_PlacedInstructionRunsNext :
    decodeTableWord 64 0x0800000000000000 = some .refresh ∧ decodeTableWord 1 1 = some .tick := by decide

theorem witness_ConstructCreatesTheBuffer :
    State.reset.bufExists = false ∧ ((0 : Int) ≤ 0 ∧ (0 : Int) ≤ 10921) ∧ (0 : Int) ≤ 10921 ∧ (10921 : Int) ≤ 10921 := by
  decide

/-- N = 1, a second CONSTRUCT of 5, index 1 outside the first size and inside the second. -/
theorem witness_SecondConstructIsIgnored :
    (sample true 3#16).bufExists = true ∧ ((sample true 3#16).leds : Int) ≤ 1 ∧ (1 : Int) < 5 := by decide

theorem witness_BadIndexIsIgnoredOrReadsZero :
    (sample true 3#16).bufExists = true ∧ (-1 : Int) < 0 ∧ ((sample true 3#16).leds : Int) ≤ 1 := by decide

theorem witness_ReservedColourIsClamped :
    0xFFFFFF ≤ (0x00FFFFFF#32).toNat ∧ 0xFFFFFF ≤ (0xFFFFFFFF#32).toNat ∧
    (0x00FFFFFE#32).toNat < 0xFFFFFF ∧ (sample true 3#16).bufExists = true ∧ (0 : Int) ≤ 0 ∧
    (0 : Int) < (sample true 3#16).leds := by decide

/-- All three positions of the sequencer; a slot holding AABBCC; a PACK. -/
theorem witness_ColourStandsMostSignificantByteFirst :
    ((sample true 3#16).bufExists = true ∧ 0 < (sample true 3#16).leds ∧
      (playing true 3#16 (.setColor 0 0x112233#32 0) [] []).seq = .setColor 0 0x112233#32 0 ∧
      (playing true 3#16 (.setColor 0 0x112233#32 1) [] []).seq = .setColor 0 0x112233#32 1 ∧
      (playing true 3#16 (.setColor 0 0x112233#32 2) [] []).seq = .setColor 0 0x112233#32 2) ∧
    ((0 : Int) ≤ 0 ∧ (0 : Int) < (sample true 3#16).leds ∧ (0xAABBCC#32).toNat < 2 ^ 24 ∧
      (sample true 3#16).holds 0 (BitVec.ofNat 8 ((0xAABBCC#32).toNat / 2 ^ 16)) ∧
      (sample true 3#16).holds 1 (BitVec.ofNat 8 ((0xAABBCC#32).toNat / 2 ^ 8)) ∧
      (sample true 3#16).holds 2 (BitVec.ofNat 8 (0xAABBCC#32).toNat)) ∧
    ∃ t, exec (.pack 0xFF#8 0x00#8 0x80#8) State.reset = .next t :=
  ⟨⟨rfl, by decide, rfl, rfl, rfl⟩, ⟨by decide, by decide, by decide, rfl, rfl, rfl⟩, _, rfl⟩

theorem witness_SetColorBeginsWithItsFirstByte :
    (sample true 3#16).bufExists = true ∧ (0 : Int) ≤ 0 ∧ (0 : Int) < (sample true 3#16).leds := by decide

/-- SETCOLOR with a timing event between its writes (V36). -/
theorem witness_SetColorStoresItsColourUnderAnySchedule :
    let s := playing true 0#16 .idle [0x0300000000A1B2C3#64] [.host, .tick, .host, .host, .tick]
    Legal s ∧ s.bufExists = true ∧ s.issues (.setColor 0 0xA1B2C3#32) [] ∧ (0 : Int) ≤ 0 ∧ (0 : Int) < s.leds ∧
    s.events = [.host, .tick, .host, .host] ++ [.tick] ∧ quiet [.host, .tick, .host, .host] ∧
    [Event.host, .tick, .host, .host].count .host = 3 :=
  ⟨playing_legal true (.inr (by decide)) _ _ trivial, rfl, ⟨rfl, _, rfl, by decide⟩, by decide, by decide, rfl,
    by decide, by decide⟩

theorem witness_ColourRoundTripIsTheClamp :
    let s := playing true 0#16 .idle [0x0300000000FFFFFF#64, 0x0400000000000000#64] [.host, .tick, .host, .host, .host]
    Legal s ∧ s.bufExists = true ∧ encode (.getColor 0) = .command 0x0400000000000000#64 ∧
    s.issues (.setColor 0 0xFFFFFF#32) [0x0400000000000000#64] ∧ (0 : Int) ≤ 0 ∧ (0 : Int) < s.leds ∧
    s.events = [.host, .tick, .host, .host, .host] ++ [] ∧ quiet [.host, .tick, .host, .host, .host] ∧
    [Event.host, .tick, .host, .host, .host].count .host = 4 :=
  ⟨playing_legal true (.inr (by decide)) _ _ trivial, rfl, by decide, ⟨rfl, _, rfl, by decide⟩, by decide, by decide,
    rfl, by decide, by decide⟩

theorem witness_GetColorReturnsThePackedSlot :
    (sample true 3#16).bufExists = true ∧ (0 : Int) ≤ 0 ∧ (0 : Int) < (sample true 3#16).leds ∧
    (sample true 3#16).holds (slotAddr 0 0) 0xAA#8 ∧ (sample true 3#16).holds (slotAddr 0 1) 0xBB#8 ∧
    (sample true 3#16).holds (slotAddr 0 2) 0xCC#8 ∧ Legal (playing true 3#16 .idle [] []) :=
  ⟨rfl, by decide, by decide, rfl, rfl, rfl, playing_legal true (.inr (by decide)) _ _ trivial⟩

/-- CLEAR issued by a free sequencer, with one LED and with none; the position of CLEAR's last byte, of INIT's first
byte, and of the begin step. -/
theorem witness_ClearMovesOneByteAtATime :
    (sample true 3#16).bufExists = true ∧ (sample true 3#16).seq = .idle ∧ 0 < (sample true 3#16).leds ∧
    emptySample.bufExists = true ∧ emptySample.seq = .idle ∧ emptySample.leds = 0 ∧ 2 < 3 * (sample true 3#16).leds ∧
    (playing true 3#16 (.clear 2) [] []).seq = .clear 2 ∧ (playing true 3#16 (.init 0) [] []).seq = .init 0 ∧
    3 = 3 * (sample true 3#16).leds ∧ (playing true 3#16 (.clear 3) [] []).seq = .clear 3 := by decide

theorem witness_ClearDarkensTheStripUnderAnySchedule :
    let s := playing true 5#16 .idle [0x0500000000000000#64] [.host, .tick, .host, .tick, .tick, .host, .host, .tick]
    Legal s ∧ s.bufExists = true ∧ s.issues .clear [] ∧
    s.events = [.host, .tick, .host, .tick, .tick, .host] ++ .host :: [.tick] ∧
    quiet [.host, .tick, .host, .tick, .tick, .host] ∧
    [Event.host, .tick, .host, .tick, .tick, .host].count .host = 3 * s.leds :=
  ⟨playing_legal true (.inr (by decide)) _ _ trivial, rfl, ⟨rfl, _, rfl, by decide⟩, rfl, by decide, by decide⟩

theorem witness_InitEnablesTheHandlerFirst :
    (sample false 3#16).bufExists = true ∧ (sample false 3#16).en = false ∧ (sample true 3#16).en = true := by decide

theorem witness_InitDarkensTheStripUnderAnySchedule :
    let s := playing false 0xFFFF#16 .idle [0x0200000000000000#64] [.host, .tick, .host, .host, .tick, .host, .host]
    Legal s ∧ s.bufExists = true ∧ s.en = false ∧ s.issues .init [] ∧
    s.events = [.host, .tick, .host, .host, .tick, .host] ++ .host :: [] ∧
    quiet [.host, .tick, .host, .host, .tick, .host] ∧
    [Event.host, .tick, .host, .host, .tick, .host].count .host = 3 * s.leds + 1 ∧ s.isIdle = true :=
  ⟨playing_legal false (.inl rfl) _ _ trivial, rfl, rfl, ⟨rfl, _, rfl, by decide⟩, rfl, by decide, by decide, by decide⟩

theorem witness_BeginStartsOnlyWhenIdle :
    (sample false 0xFFFF#16).bufExists = true ∧ (sample false 0xFFFF#16).isIdle = true ∧
    (sample true 6#16).isIdle = false := by decide

theorem witness_StartWhileActiveIsIgnored :
    (playing true 0#16 (.clear 3) [] []).bufExists = true ∧ (playing true 0#16 (.clear 3) [] []).isActive = true ∧
    (playing true 0#16 (.clear 3) [] []).seq = .clear (3 * (sample true 0#16).leds) ∧
    (playing true 6#16 (.init 3) [] []).isActive = true ∧
    (playing true 6#16 (.init 3) [] []).seq = .init (3 * (sample true 6#16).leds) := by decide

theorem witness_IsDoneReportsIdle :
    (sample true 0#16).bufExists = true ∧ (0#16).toInt = 0 ∧ Config.idle.toInt < 0 ∧ State.reset.bufExists = false ∧
    ∃ t, exec (.construct 10921) State.reset = .next t :=
  ⟨rfl, by decide, by decide, rfl, _, rfl⟩

theorem witness_RefreshBeginsThenPolls :
    (sample true 0xFFFF#16).bufExists = true ∧ (sample true 0xFFFF#16).isIdle = true ∧
    (playing true 6#16 .refresh [] []).seq = .refresh ∧ (playing true 6#16 .refresh [] []).isIdle = false := by decide

/-- N = 1, L = 7: six timing events leave REFRESH running; after the seventh and one filler the poll completes it. -/
theorem witness_RefreshEndsWithItsTransfer :
    let six := [Event.tick, .tick, .host, .tick, .tick, .tick, .tick]
    let s := playing true 0xFFFF#16 .idle [0x0800000000000000#64] (.host :: (six ++ []))
    let u := playing true 0xFFFF#16 .idle [0x0800000000000000#64] (.host :: ((six ++ [.tick, .tick]) ++ [.host]))
    (Legal s ∧ s.bufExists = true ∧ s.en = true ∧ s.isIdle = true ∧ s.issues .refresh [] ∧ quiet six ∧
      six.count .tick < s.len) ∧
    (Legal u ∧ u.issues .refresh [] ∧ quiet (six ++ [.tick, .tick]) ∧
      six ++ [.tick, .tick] = six ++ .tick :: List.replicate 1 .tick ∧ six.count .tick + 1 = u.len) :=
  ⟨⟨playing_legal true (.inl rfl) _ _ trivial, rfl, rfl, by decide, ⟨rfl, _, rfl, by decide⟩, by decide, by decide⟩,
    playing_legal true (.inl rfl) _ _ trivial, ⟨rfl, _, rfl, by decide⟩, by decide, rfl, by decide⟩

theorem witness_RefreshHangsWithoutTimingEvents :
    (playing false 0#16 .refresh [] [.tick, .host]).seq = .refresh ∧
    (playing false 0#16 .refresh [] [.tick, .host]).isActive = true ∧
    (playing false 0#16 .refresh [] [.tick, .host]).en = false ∧ quiet [.tick, .host] ∧
    (playing true 6#16 .refresh [] [.host, .host, .tick]).events = List.replicate 2 .host ++ [.tick] ∧
    (playing true 6#16 .refresh [] []).events = [] :=
  ⟨rfl, by decide, rfl, by decide, rfl, rfl⟩

/-- Disabled; Idle; Active at the first index and at the last. -/
theorem witness_TickEmitsExactlyOneByte :
    (sample false 0#16).en = false ∧ (sample true 0xFFFF#16).isIdle = true ∧
    (Legal (playing true 0#16 .idle [] []) ∧ (playing true 0#16 .idle [] []).isActive = true) ∧
    (Legal (playing true 6#16 .idle [] []) ∧ (playing true 6#16 .idle [] []).cur.toNat + 1 = (sample true 6#16).len) :=
  ⟨rfl, by decide, ⟨playing_legal true (.inr (by decide)) _ _ trivial, by decide⟩,
    playing_legal true (.inr (by decide)) _ _ trivial, by decide⟩

theorem witness_EngineTouchesOnlyCursorOutputAndTrace :
    (∃ t, exec .tick (playing true 6#16 .idle [] []) = .next t) ∧
    playing true 6#16 (.clear 2) [0x0700000000000000#64] [.host] =
      { playing true 6#16 .idle [] [] with seq := .clear 2, program := [0x0700000000000000#64], events := [.host] } :=
  ⟨⟨_, rfl⟩, rfl⟩

/-- Both ends of `k`: no timing event, and L of them. -/
theorem witness_TransferSendsTheBufferInOrder :
    let s := playing true 0xFFFF#16 .idle [0x0600000000000000#64] (.host :: (List.replicate 0 .tick ++ [.tick]))
    let u := playing true 0xFFFF#16 .idle [0x0600000000000000#64] (.host :: (List.replicate 7 .tick ++ []))
    (Legal s ∧ s.bufExists = true ∧ s.en = true ∧ s.isIdle = true ∧ s.issues .beginTransfer [] ∧ 0 ≤ s.len) ∧
    (Legal u ∧ u.issues .beginTransfer [] ∧ 7 ≤ u.len) :=
  ⟨⟨playing_legal true (.inl rfl) _ _ trivial, rfl, rfl, by decide, ⟨rfl, _, rfl, by decide⟩, by decide⟩,
    playing_legal true (.inl rfl) _ _ trivial, ⟨rfl, _, rfl, by decide⟩, by decide⟩

/-- A transfer at index 3, BEGIN and CLEAR issued in it, three timing events: one short of its end. -/
theorem witness_NothingDisturbsARunningTransfer :
    let es := [Event.host, .tick, .host, .tick, .host, .tick]
    let s := playing true 3#16 .idle [0x0600000000000000#64, 0x0500000000000000#64] (es ++ [])
    Legal s ∧ s.en = true ∧ s.isActive = true ∧ quiet es ∧ (∃ t, runSteps es.length s = .next t) ∧
    s.cur.toNat + es.count .tick < s.len ∧ s.cur.toNat + es.count .tick + 1 = s.len :=
  ⟨playing_legal true (.inr (by decide)) _ _ trivial, rfl, by decide, by decide, ⟨_, rfl⟩, by decide, by decide⟩

theorem witness_OnlyTimingEventsEmit :
    ((playing true 6#16 .idle [] [.tick]).noReset ∧ (∃ t, step (playing true 6#16 .idle [] [.tick]) = .next t) ∧
      (playing true 6#16 .idle [] [.tick]).en = true ∧ (playing true 6#16 .idle [] [.tick]).isActive = true) ∧
    ((playing true 0xFFFF#16 .idle [] [.tick]).noReset ∧ (playing true 0xFFFF#16 .idle [] [.tick]).isIdle = true) ∧
    ((playing true 6#16 (.clear 3) [] [.host]).noReset ∧
      (∃ t, step (playing true 6#16 (.clear 3) [] [.host]) = .next t) ∧
      ∀ es, (playing true 6#16 (.clear 3) [] [.host]).events ≠ .tick :: es) :=
  ⟨⟨nofun, ⟨_, rfl⟩, rfl, by decide⟩, ⟨nofun, by decide⟩,
    nofun, ⟨_, rfl⟩, nofun⟩

/-- A begin step while Idle, which lowers H, and the last timing event of a transfer, which raises it. -/
theorem witness_CursorHasOneWriterAtATime :
    (Legal (playing true 0xFFFF#16 (.clear 3) [] [.host]) ∧ (playing true 0xFFFF#16 (.clear 3) [] [.host]).noReset ∧
      (∃ t, step (playing true 0xFFFF#16 (.clear 3) [] [.host]) = .next t ∧ t.cur ≠ 0xFFFF#16) ∧
      ∀ es, (playing true 0xFFFF#16 (.clear 3) [] [.host]).events ≠ .tick :: es) ∧
    (Legal (playing true 6#16 (.clear 3) [] [.tick]) ∧ (playing true 6#16 (.clear 3) [] [.tick]).noReset ∧
      ∃ t, step (playing true 6#16 (.clear 3) [] [.tick]) = .next t ∧ t.handshake ≠ false) :=
  ⟨⟨playing_legal true (.inl rfl) _ _ ⟨rfl, by decide⟩, nofun, ⟨_, rfl, by decide⟩,
      nofun⟩,
    playing_legal true (.inr (by decide)) _ _ ⟨rfl, by decide⟩, nofun, _, rfl, by decide⟩

theorem witness_SizeAndLatchBytesAreFixed :
    let s := playing true 3#16 (.setColor 0 0xFFFFFE#32 2) [] [.host]
    Legal s ∧ s.bufExists = true ∧ s.noReset ∧ (∃ t, step s = .next t) ∧ 3 * s.leds ≤ 3 :=
  ⟨playing_legal true (.inr (by decide)) _ _ ⟨rfl, by decide, by decide⟩, rfl, nofun, ⟨_, rfl⟩,
    by decide⟩

/-- The first index, the last, and one past it. -/
theorem witness_PeekReadsOneRawByte :
    (sample true 3#16).bufExists = true ∧ ((0 : Int) ≤ 0 ∧ (sample true 3#16).holds 0 0xAA#8) ∧
    (sample true 3#16).holds 6 0x80#8 ∧ Legal (playing true 3#16 .idle [] []) ∧ (6 : Int) < (sample true 3#16).len ∧
    (-1 : Int) < 0 ∧ ((sample true 3#16).len : Int) ≤ 7 :=
  ⟨rfl, ⟨by decide, rfl⟩, rfl, playing_legal true (.inr (by decide)) _ _ trivial, by decide, by decide, by decide⟩

theorem witness_ReadsHaveNoSideEffect :
    (∃ t, exec (.getColor 0) (sample true 3#16) = .next t) ∧ (∃ t, exec (.peek 6) (sample true 3#16) = .next t) ∧
    (∃ t, exec .isDone (sample true 3#16) = .next t) ∧
    ∃ t, exec (.pack 0xFF#8 0xFF#8 0xFF#8) (sample true 3#16) = .next t :=
  ⟨⟨_, rfl⟩, ⟨_, rfl⟩, ⟨_, rfl⟩, _, rfl⟩

theorem witness_AddressesAndCursorNeverWrap :
    Legal (playing true 6#16 .idle [] []) ∧ 0 < (playing true 6#16 .idle [] []).leds ∧
    (playing true 6#16 .idle [] []).isActive = true :=
  ⟨playing_legal true (.inr (by decide)) _ _ trivial, by decide, by decide⟩

theorem witness_HandshakeHasNoDelay :
    (Legal (playing true 0xFFFF#16 .idle [] []) ∧ (sample true 0xFFFF#16).bufExists = true ∧
      (sample true 0xFFFF#16).en = true ∧ (playing true 0xFFFF#16 .idle [] []).isIdle = true) ∧
    (Legal (playing true 6#16 .idle [] []) ∧ (playing true 6#16 .idle [] []).isActive = true ∧
      (playing true 6#16 .idle [] []).cur.toNat + 1 = (sample true 6#16).len) :=
  ⟨⟨playing_legal true (.inl rfl) _ _ trivial, rfl, rfl, by decide⟩,
    playing_legal true (.inr (by decide)) _ _ trivial, by decide, by decide⟩

theorem witness_DarkTransferSendsTheAllOffFrame :
    let s := { darkSample 0#16 with events := List.replicate 7 .tick ++ [.host] }
    Legal s ∧ s.bufExists = true ∧ s.en = true ∧ s.dark ∧ s.cur = 0#16 ∧
    s.events = List.replicate s.len .tick ++ [.host] := by
  refine ⟨darkSample_legal.setEvents _, rfl, rfl, fun a ha => ?_, rfl, rfl⟩
  replace ha : a < 3 := ha
  match a, ha with
  | 0, _ => rfl
  | 1, _ => rfl
  | 2, _ => rfl

/-- A write at the cursor and a write elsewhere. -/
theorem witness_WriteIsSeenByTheNextTimingEvent :
    let s := playing true 2#16 .idle [] []
    Legal s ∧ s.en = true ∧ s.isActive = true ∧ (∃ t, s.memWrite 2 0x33#8 = .next t) ∧
    (∃ t, s.memWrite 6 0x33#8 = .next t) ∧ 2 = s.cur.toNat ∧ 6 ≠ s.cur.toNat :=
  ⟨playing_legal true (.inr (by decide)) _ _ trivial, rfl, by decide, ⟨_, rfl⟩, ⟨_, rfl⟩, by decide, by decide⟩

end Sys2Proof.Tests
end

/-! SUPPORT. What a step changes and what it leaves as it was (spec/10_state.md): the frames of the begin step, of a
timing event, of a later micro-step and of every HOST move, and the six statements about the state that follow. -/

namespace Sys2Proof.Machine

/-! ## The begin step -/

/-- The begin step writes the cursor and nothing else (R52, R92). -/
theorem State.beginStep_eq_setCur (s : State) : s.beginStep = s.setCur s.beginStep.cur := by
  obtain ⟨_, hb⟩ | ⟨_, hb⟩ := s.beginStep_cases <;> rw [hb] <;> rfl

@[simp] theorem State.beginStep_bufExists (s : State) : s.beginStep.bufExists = s.bufExists := by
  rw [s.beginStep_eq_setCur, State.setCur_bufExists]
@[simp] theorem State.beginStep_en (s : State) : s.beginStep.en = s.en := by
  rw [s.beginStep_eq_setCur, State.setCur_en]
@[simp] theorem State.beginStep_ledCount (s : State) : s.beginStep.ledCount = s.ledCount := by
  rw [s.beginStep_eq_setCur, State.setCur_ledCount]
@[simp] theorem State.beginStep_out (s : State) : s.beginStep.out = s.out := by
  rw [s.beginStep_eq_setCur, State.setCur_out]
@[simp] theorem State.beginStep_trace (s : State) : s.beginStep.trace = s.trace := by
  rw [s.beginStep_eq_setCur, State.setCur_trace]
@[simp] theorem State.beginStep_memRead (s : State) (a : Nat) : s.beginStep.memRead a = s.memRead a := by
  rw [s.beginStep_eq_setCur, State.setCur_memRead]

/-! ## One timing event -/

/-- A timing event writes the cursor, the output register and the trace and nothing else (R91, R118). -/
theorem execTick_frame {s t : State} (h : exec .tick s = .next t) :
    t = { s with cur := t.cur, out := t.out, trace := t.trace } := by
  obtain ⟨_, rfl⟩ | ⟨_, _, rfl⟩ | ⟨_, _, b, _, rfl⟩ := takeTimingEvent_cases h
  · rfl
  · rfl
  · rfl

/-- While the handler is off a timing event is dropped (R22). -/
theorem execTick_disabled {s t : State} (h : exec .tick s = .next t) (hen : s.en = false) : t = s := by
  obtain ⟨_, ht⟩ | ⟨hon, _⟩ | ⟨hon, _⟩ := takeTimingEvent_cases h
  · exact ht
  · exact absurd (hon.symm.trans hen) (by decide)
  · exact absurd (hon.symm.trans hen) (by decide)

/-- Once enabled a timing event emits one byte: the filler while Idle, the byte at the cursor while Active (R91). -/
theorem execTick_emits {s t : State} (h : exec .tick s = .next t) (hen : s.en = true) :
    t.trace = s.trace ++ [t.out] ∧ (s.isIdle = true → t.out = Config.filler) ∧
      (s.isActive = true → s.holds s.cur.toNat t.out) := by
  obtain ⟨hoff, _⟩ | ⟨_, hi, rfl⟩ | ⟨_, hi, b, hb, rfl⟩ := takeTimingEvent_cases h
  · exact absurd (hen.symm.trans hoff) (by decide)
  · exact ⟨rfl, fun _ => rfl, fun ha => by simp [State.isActive_eq, hi] at ha⟩
  · exact ⟨rfl, fun hidle => absurd (hidle.symm.trans hi) (by decide), fun _ => hb⟩

/-- A timing event leaves an Idle cursor alone. -/
theorem execTick_cur_of_idle {s t : State} (h : exec .tick s = .next t) (hi : s.isIdle = true) : t.cur = s.cur := by
  obtain ⟨_, rfl⟩ | ⟨_, _, rfl⟩ | ⟨_, ha, _⟩ := takeTimingEvent_cases h
  · rfl
  · rfl
  · exact absurd (hi.symm.trans ha) (by decide)

/-- A timing event never shortens the trace. -/
theorem execTick_trace_grows {s t : State} (h : exec .tick s = .next t) : s.trace <+: t.trace := by
  cases hen : s.en with
  | false => exact ⟨[], by rw [execTick_disabled h hen, List.append_nil]⟩
  | true => exact ⟨[t.out], (execTick_emits h hen).1.symm⟩

/-- A timing event keeps a legal state legal. -/
theorem Legal.execTick {s t : State} (hl : Legal s) (h : exec .tick s = .next t) : Legal t := by
  obtain ⟨_, rfl⟩ | ⟨hen, _, rfl⟩ | ⟨hen, hi, b, _, rfl⟩ := takeTimingEvent_cases h
  · exact hl
  · exact hl.emit hen _
  · exact (hl.emit hen b).advance hi

/-! ## HOST's moves -/

/-- A micro-step of CLEAR or INIT writes the buffer, the cursor and the sequencer and nothing else (R83, R100). -/
theorem clearByte_frame {s t : State} {running : Nat → Sequencer} {k : Nat} (h : s.clearByte running k = .next t) :
    t = { s with buf := t.buf, cur := t.cur, seq := t.seq } := by
  obtain ⟨_, _, rfl⟩ | ⟨_, rfl⟩ := State.clearByte_eq_next h
  · rfl
  · rw [s.beginStep_eq_setCur]; rfl

/-- A later micro-step of any operation, legal or not, writes the buffer, the cursor and the sequencer and nothing
else (R29). -/
theorem microStep_frame {s t : State} (h : microStep s = .next t) :
    t = { s with buf := t.buf, cur := t.cur, seq := t.seq } := by
  rw [microStep] at h
  cases hq : s.seq with
  | idle => rw [hq] at h; cases h; rfl
  | setColor slot colour next =>
    rw [hq] at h
    obtain ⟨_, _, rfl⟩ := State.writeSlotByte_eq_next h
    rfl
  | clear next => rw [hq] at h; exact clearByte_frame h
  | init next => rw [hq] at h; exact clearByte_frame h
  | refresh =>
    rw [hq] at h; cases h
    obtain ⟨_, hp⟩ | ⟨_, hp⟩ := s.poll_cases <;> rw [hp] <;> rfl

/-- No HOST effect emits. -/
theorem HostEffect.emits_nothing {s t : State} (e : HostEffect s t) : t.out = s.out ∧ t.trace = s.trace := by
  cases e with
  | gives r => exact ⟨rfl, rfl⟩
  | moves q he hq => exact ⟨rfl, rfl⟩
  | begins q he hq => exact ⟨s.beginStep_out, s.beginStep_trace⟩
  | writes a v q he ha hq => exact ⟨rfl, rfl⟩
  | enables he hen => exact ⟨rfl, rfl⟩
  | constructs n he hn => exact ⟨rfl, rfl⟩

/-- From a legal state a HOST effect either leaves the cursor alone or starts a transfer from Idle; CONSTRUCT writes
the idle sentinel over itself. -/
theorem HostEffect.cur_cases {s t : State} (e : HostEffect s t) (hl : Legal s) :
    t.cur = s.cur ∨ (s.isIdle = true ∧ t.cur = 0#16) := by
  cases e with
  | gives r => exact .inl rfl
  | moves q he hq => exact .inl rfl
  | begins q he hq =>
    obtain ⟨hi, hb⟩ | ⟨_, hb⟩ := s.beginStep_cases
    · exact .inr ⟨hi, by rw [hb]; rfl⟩
    · exact .inl (by rw [hb]; rfl)
  | writes a v q he ha hq => exact .inl rfl
  | enables he hen => exact .inl rfl
  | constructs n he hn =>
    obtain ⟨_, _, hcur, _⟩ := hl.absent he
    exact .inl hcur.symm

/-- Once a buffer exists a HOST effect changes neither its size nor a byte from 3N on, and does not turn the handler
off. -/
theorem HostEffect.size_and_latch_fixed {s t : State} (e : HostEffect s t) (he : s.bufExists = true) :
    t.bufExists = true ∧ t.ledCount = s.ledCount ∧ (s.en = true → t.en = true) ∧
      ∀ a, 3 * s.leds ≤ a → t.memRead a = s.memRead a := by
  cases e with
  | gives r => exact ⟨he, rfl, id, fun _ _ => rfl⟩
  | moves q _ hq => exact ⟨he, rfl, id, fun _ _ => rfl⟩
  | begins q _ hq => exact ⟨by simp [he], by simp, by simp, by simp⟩
  | writes b v q _ hb hq =>
    refine ⟨he, rfl, id, fun a ha => ?_⟩
    have hlen : b < s.len := by rw [State.len]; omega
    rw [State.setSeq_memRead, State.memRead_setBuf_write he hlen, if_neg (by omega)]
  | enables _ hen => exact ⟨he, rfl, fun _ => rfl, fun _ _ => rfl⟩
  | constructs n hn _ => exact absurd (he.symm.trans hn) (by decide)

/-- HOST's turn never emits, from any state: a first micro-step is a HOST effect, because the sequencer is then free,
and a later one stays inside its frame. -/
theorem hostTurn_emits_nothing {s t : State} (h : hostTurn s = .next t) : t.out = s.out ∧ t.trace = s.trace := by
  obtain ⟨_, _, rfl⟩ | ⟨hq, w, ws, i, _, hd, hi⟩ | ⟨_, hm⟩ := hostTurn_cases h
  · exact ⟨rfl, rfl⟩
  · have hlegal : (s.setProgram ws).seq.legal (s.setProgram ws) := by
      rw [State.setProgram_seq, hq]; trivial
    exact (exec_effect hlegal (decode_command_ne_tick hd) hi).emits_nothing
  · exact ⟨(congrArg State.out (microStep_frame hm) :), (congrArg State.trace (microStep_frame hm) :)⟩

/-- Inside a running operation HOST's turn is the operation's next micro-step. -/
theorem hostTurn_of_running {s : State} (hq : s.seq ≠ .idle) : hostTurn s = microStep s := by
  simp [hostTurn, State.cmdReady, hq]

/-- With the sequencer free and no command word left HOST's turn changes nothing. -/
theorem hostTurn_of_no_word {s : State} (hq : s.seq = .idle) (hp : s.program = []) : hostTurn s = .next s := by
  simp [hostTurn, State.cmdReady, State.fetch, hq, hp]

/-! ## One step -/

/-- When HOST has the next move, the step is HOST's turn with that move taken. -/
theorem step_of_host {s : State} (h : s.events = [] ∨ ∃ es, s.events = .host :: es) :
    step s = hostTurn (s.setEvents s.events.tail) := by
  obtain hev | ⟨es, hev⟩ := h
  · rw [step, State.takeTurn_nil hev, hev, List.tail_nil, ← hev, State.setEvents_events_self]
  · rw [step, State.takeTurn_cons hev, hev, List.tail_cons]

/-- A step without a reset is a timing event or HOST's turn. -/
theorem step_cases_of_noReset {s t : State} (hr : s.noReset) (h : step s = .next t) :
    (∃ es, s.events = .tick :: es ∧ exec .tick (s.setEvents es) = .next t) ∨
    ((∀ es, s.events ≠ .tick :: es) ∧ hostTurn (s.setEvents s.events.tail) = .next t) := by
  obtain htick | ⟨es, hev, _⟩ | ⟨hev, hhost⟩ := step_cases h
  · exact .inl htick
  · exact absurd hev (hr es)
  · refine .inr ⟨fun es htick => ?_, hhost⟩
    rw [htick] at hev
    obtain hnil | ⟨_, hcons⟩ := hev
    · cases hnil
    · cases hcons

/-- HOST's turn from a legal state is one HOST effect on a legal state that differs at most in what is still to be
done. -/
theorem Legal.hostTurn_effect {s t : State} (hl : Legal s) {es : List Event}
    (h : hostTurn (s.setEvents es) = .next t) :
    ∃ ws, Legal ((s.setEvents es).setProgram ws) ∧ HostEffect ((s.setEvents es).setProgram ws) t := by
  have hle := hl.setEvents es
  obtain ⟨ws, e⟩ := Machine.hostTurn_effect hle.sequencer h
  exact ⟨ws, hle.setProgram ws, e⟩

theorem reset_legal : Legal State.reset where
  absent _ := ⟨rfl, rfl, rfl, rfl⟩
  canonical := rfl
  indices he := by cases he
  count := Nat.zero_le _
  latch he := by cases he
  cursor := .inl rfl
  silent _ := ⟨rfl, rfl⟩
  output hne := absurd rfl hne
  sequencer := trivial

/-- The reset input makes every state legal (R130). -/
theorem powerOn_legal (s : State) : Legal s.powerOn :=
  reset_legal.outside [] s.draws s.program s.events

/-- Every step keeps the legal states: a timing event, the reset input, and HOST's turn each do. -/
theorem Legal.step {s t : State} (hl : Legal s) (h : step s = .next t) : Legal t := by
  obtain ⟨es, _, htick⟩ | ⟨es, _, rfl⟩ | ⟨_, hhost⟩ := step_cases h
  · exact (hl.setEvents es).execTick htick
  · exact powerOn_legal _
  · obtain ⟨ws, hlw, e⟩ := hl.hostTurn_effect hhost
    exact e.keeps hlw

end Sys2Proof.Machine

namespace Sys2Proof.Proofs

open Sys2Proof.Machine

/-- Settles O8: the invariant is kept by each kind of move. -/
theorem stepKeepsTheLegalStates : Obligations.StepKeepsTheLegalStates :=
  fun _ _ hl h => hl.step h

/-- Settles O38, for every state, legal or not. -/
theorem onlyTimingEventsEmit : Obligations.OnlyTimingEventsEmit := by
  intro s t hr h
  obtain ⟨es, hev, htick⟩ | ⟨hno, hhost⟩ := step_cases_of_noReset hr h
  · refine ⟨fun _ _ hen => (execTick_emits htick hen :), fun hquiet => ?_⟩
    have hen : s.en = false := hquiet.resolve_left fun hno => hno es hev
    rw [execTick_disabled htick hen]
    exact ⟨rfl, rfl⟩
  · exact ⟨fun es hev => absurd hev (hno es), fun _ => (hostTurn_emits_nothing hhost :)⟩

/-- Settles O39. For the engine's side: an Idle cursor stays, so H can only rise, and a legal state in which H is 1
has the idle sentinel in its cursor. -/
theorem cursorHasOneWriterAtATime : Obligations.CursorHasOneWriterAtATime := by
  intro s t hl hr h
  obtain ⟨es, hev, htick⟩ | ⟨hno, hhost⟩ := step_cases_of_noReset hr h
  · refine ⟨fun hno => absurd hev (hno es), fun _ _ => ?_⟩
    have hstays (hi : s.isIdle = true) : t.cur = s.cur := (execTick_cur_of_idle htick hi :)
    refine ⟨hstays, fun hchange => ?_⟩
    have hbefore : s.handshake = false := by
      refine Bool.eq_false_iff.mpr fun hi => hchange ?_
      rw [State.handshake, hstays hi, State.handshake]
    have hafter : t.handshake = true := by
      rwa [hbefore, ne_eq, Bool.not_eq_false] at hchange
    exact ⟨hafter, (hl.step h).idle hafter⟩
  · refine ⟨fun _ => ?_, fun es hev => absurd hev (hno es)⟩
    obtain ⟨ws, hlw, e⟩ := hl.hostTurn_effect hhost
    obtain hsame | ⟨hi, hzero⟩ := e.cur_cases hlw
    · exact ⟨fun _ => hsame, fun hne => absurd hsame hne⟩
    · have hidle : s.isIdle = true := hi
      exact ⟨fun ha => by simp [State.isActive_eq, hidle] at ha, fun _ => ⟨hidle, hzero⟩⟩

/-- Settles O40. -/
theorem sizeAndLatchBytesAreFixed : Obligations.SizeAndLatchBytesAreFixed := by
  intro s t hl he hr h
  obtain ⟨es, _, htick⟩ | ⟨_, hhost⟩ := step_cases_of_noReset hr h
  · have hframe := execTick_frame htick
    exact ⟨(congrArg State.bufExists hframe).trans he, (congrArg State.ledCount hframe :),
      fun hen => (congrArg State.en hframe).trans hen, fun a _ => (congrArg (State.memRead · a) hframe :),
      (execTick_trace_grows htick :)⟩
  · obtain ⟨ws, _, e⟩ := hl.hostTurn_effect hhost
    obtain ⟨hexists, hsize, hen, hlatch⟩ := e.size_and_latch_fixed he
    obtain ⟨_, htrace⟩ := e.emits_nothing
    exact ⟨hexists, hsize, hen, hlatch, ⟨[], by rw [htrace, List.append_nil]; rfl⟩⟩

/-- Settles O7. -/
theorem resetStateIsLegal : Obligations.ResetStateIsLegal :=
  reset_legal

/-- Settles O13. -/
theorem stepContinuesTheRunningOperation : Obligations.StepContinuesTheRunningOperation := by
  intro s hhost
  have hrun (hq : s.seq ≠ .idle) : step s = microStep (s.setEvents s.events.tail) :=
    (step_of_host hhost).trans (hostTurn_of_running hq)
  refine ⟨hrun, fun hq t h => ?_, fun hq hp => (step_of_host hhost).trans (hostTurn_of_no_word hq hp)⟩
  rw [hrun hq] at h
  exact (congrArg State.program (microStep_frame h) :)

end Sys2Proof.Proofs

/-! SUPPORT. The buffer's bytes as the rest of the block sees them (spec/20_memory.md): the byte order of a colour, the
byte a timing event finds at the cursor, and the operations that only hand back a value; then the four statements about
memory that follow. -/

namespace Sys2Proof.Machine

/-! ## The byte order of a colour -/

/-- Byte `k` of a colour by division, the most significant of the three first (R42). -/
theorem colourByte_eq_ofNat (v : Value) (k : Fin 3) :
    colourByte v k = BitVec.ofNat 8 (v.toNat / 2 ^ (16 - 8 * k.val)) := by
  match k with
  | 0 | 1 | 2 => simp [colourByte, BitVec.extractLsb', Nat.shiftRight_eq_div_pow]

/-- The packing order as a number: green high, blue middle, red low (R82, R101). -/
theorem packGBR_toNat (green blue red : Byte) :
    (packGBR green blue red).toNat = green.toNat * 65536 + blue.toNat * 256 + red.toNat := by
  have hg := green.isLt
  have hb := blue.isLt
  have hr := red.isLt
  rw [packGBR, BitVec.toNat_setWidth, BitVec.toNat_append, BitVec.toNat_append, ← Nat.shiftLeft_add_eq_or_of_lt hb,
    ← Nat.shiftLeft_add_eq_or_of_lt hr, Nat.shiftLeft_eq, Nat.shiftLeft_eq]
  omega

/-- A packed value has 24 bits (R65). -/
theorem packGBR_lt (green blue red : Byte) : (packGBR green blue red).toNat < 2 ^ 24 := by
  rw [packGBR, BitVec.toNat_setWidth_of_le (by decide)]
  exact BitVec.isLt _

/-- Packing puts green in byte 0, blue in byte 1 and red in byte 2. -/
theorem colourByte_packGBR (green blue red : Byte) :
    colourByte (packGBR green blue red) 0 = green ∧ colourByte (packGBR green blue red) 1 = blue ∧
      colourByte (packGBR green blue red) 2 = red := by
  have hg := green.isLt
  have hb := blue.isLt
  have hr := red.isLt
  simp [colourByte_eq_ofNat, packGBR_toNat, ← BitVec.toNat_inj]
  omega

/-- The bytes of a 24-bit colour pack to that colour again. -/
theorem packGBR_colourByte {v : Value} (h : v.toNat < 2 ^ 24) :
    packGBR (colourByte v 0) (colourByte v 1) (colourByte v 2) = v := by
  simp [colourByte_eq_ofNat, ← BitVec.toNat_inj, packGBR_toNat]
  omega

/-- The sequencer after byte `k` of a SETCOLOR: the next byte, or free after the last. -/
theorem afterSlotByte_eq (slot : Nat) (colour : Value) (k : Fin 3) :
    afterSlotByte slot colour k = if k = 2 then .idle else .setColor slot colour (k + 1) := by
  match k with
  | 0 | 1 | 2 => rfl

/-! ## The byte a timing event finds at the cursor -/

/-- While the handler is on and the engine Active, a timing event emits the byte at the cursor and moves on (R91). -/
theorem execTick_of_holds {s : State} {b : Byte} (hen : s.en = true) (ha : s.isIdle = false)
    (hb : s.holds s.cur.toNat b) : exec .tick s = .next (s.emit b).advance := by
  simp [exec, execTick, State.takeTimingEvent, State.emitOneByte, hen, ha, State.readThen_of_holds hb]

@[simp] theorem State.advance_bufExists (s : State) : s.advance.bufExists = s.bufExists := rfl
@[simp] theorem State.advance_out (s : State) : s.advance.out = s.out := rfl
@[simp] theorem State.advance_trace (s : State) : s.advance.trace = s.trace := rfl
@[simp] theorem State.advance_returned (s : State) : s.advance.returned = s.returned := rfl

theorem State.isIdle_eq_false_of_isActive {s : State} (h : s.isActive = true) : s.isIdle = false := by
  rwa [State.isActive_eq, Bool.not_eq_true'] at h

theorem State.isIdle_of_cur {s : State} (h : s.cur = Config.idle) : s.isIdle = true := by
  rw [State.isIdle, State.handshake, h]; decide

@[simp] theorem State.setCur_zero_isIdle (s : State) : (s.setCur 0#16).isIdle = false := by
  rw [State.isIdle, State.handshake, State.setCur_cur]; decide

/-- After the last byte of the buffer the cursor is IDLE (R25, R91). -/
theorem State.advance_isIdle_of_last {s : State} (h : s.cur.toNat + 1 = s.len) (hl : s.len ≤ 32767) :
    s.advance.isIdle = true := by
  have hnext : (s.cur + 1#16).toNat = s.len := by
    simp only [BitVec.toNat_add, BitVec.reduceToNat]; omega
  obtain ⟨_, hadv⟩ | ⟨hne, _⟩ := s.advance_cases
  · exact State.isIdle_of_cur (by rw [hadv, State.setCur_cur])
  · exact absurd hnext hne

/-! ## The operations that only hand back a value -/

/-- GETCOLOR of an accepted slot packs the three bytes found there (R82). -/
theorem execGetColor_of_holds {s : State} {i : Int} {slot : Nat} {green blue red : Byte} (hs : s.slotOf i = some slot)
    (h0 : s.holds (slotAddr slot 0) green) (h1 : s.holds (slotAddr slot 1) blue) (h2 : s.holds (slotAddr slot 2) red) :
    exec (.getColor i) s = .next (s.give (packGBR green blue red)) := by
  obtain ⟨he, _⟩ := State.lt_of_holds h0
  simp [exec, execGetColor, State.needBuffer_of_exists he, hs, State.readThen_of_holds h0, State.readThen_of_holds h1,
    State.readThen_of_holds h2]

/-- All that GETCOLOR can do: 0 for a bad index, else the packed slot. -/
theorem execGetColor_eq_next {s t : State} {i : Int} (h : exec (.getColor i) s = .next t) :
    (s.slotOf i = none ∧ t = s.give 0#32) ∨
    ∃ slot green blue red, s.slotOf i = some slot ∧ s.holds (slotAddr slot 0) green ∧
      s.holds (slotAddr slot 1) blue ∧ s.holds (slotAddr slot 2) red ∧ t = s.give (packGBR green blue red) := by
  obtain ⟨_, h⟩ := State.needBuffer_eq_next.mp h
  split at h
  · next hs => cases h; exact .inl ⟨hs, rfl⟩
  · next slot hs =>
    obtain ⟨green, h0, h⟩ := State.readThen_eq_next.mp h
    obtain ⟨blue, h1, h⟩ := State.readThen_eq_next.mp h
    obtain ⟨red, h2, h⟩ := State.readThen_eq_next.mp h
    cases h
    exact .inr ⟨slot, green, blue, red, hs, h0, h1, h2, rfl⟩

/-- All that PEEK can do: the raw byte at an index of the buffer (R102). -/
theorem execPeek_eq_next {s t : State} {i : Int} (h : exec (.peek i) s = .next t) :
    ∃ a b, s.bufIndexOf i = some a ∧ s.holds a b ∧ t = s.give (b.setWidth 32) := by
  obtain ⟨_, h⟩ := State.needBuffer_eq_next.mp h
  split at h
  · cases h
  · next a ha =>
    obtain ⟨b, hb, h⟩ := State.readThen_eq_next.mp h
    cases h
    exact ⟨a, b, ha, hb, rfl⟩

/-- All that ISDONE can do: 1 when Idle, else 0 (R94). -/
theorem execIsDone_eq_next {s t : State} :
    exec .isDone s = .next t ↔ s.bufExists = true ∧ t = s.give (if s.isIdle then 1#32 else 0#32) := by
  rw [exec, execIsDone, State.needBuffer_eq_next, Host.Outcome.next.injEq, eq_comm (a := t)]

/-- All that PACK can do (R101). -/
theorem execPack_eq_next {s t : State} {red green blue : Byte} :
    exec (.pack red green blue) s = .next t ↔ t = s.give (packGBR green blue red) := by
  rw [exec, execPack, Host.Outcome.next.injEq, eq_comm]

end Sys2Proof.Machine

namespace Sys2Proof.Proofs

open Sys2Proof.Machine

/-- Settles O19: the byte places are those of `colourByte`, and `packGBR` is its inverse on 24 bits. -/
theorem colourStandsMostSignificantByteFirst : Obligations.ColourStandsMostSignificantByteFirst := by
  refine ⟨fun s slot v k he hs hq => ?_, fun s i v h0 hN hv hg hb hr => ?_, fun s t r g b h => ?_⟩
  · have haddr : slotAddr slot k < s.len := Nat.lt_of_lt_of_le (slotAddr_lt hs k) (Nat.le_add_left _ _)
    have hstep : microStep s = s.writeSlotByte slot v k := by rw [microStep, hq]
    refine ⟨_, hstep.trans (State.writeSlotByte_of_lt he hs v k), fun a => ?_, rfl, afterSlotByte_eq slot v k⟩
    rw [State.setSeq_memRead, State.memRead_setBuf_write he haddr, colourByte_eq_ofNat, slotAddr]
  · have hholds (k : Fin 3)
        (h : s.holds (3 * i.toNat + k.val) (BitVec.ofNat 8 (v.toNat / 2 ^ (16 - 8 * k.val)))) :
        s.holds (slotAddr i.toNat k) (colourByte v k) := by
      rwa [slotAddr, colourByte_eq_ofNat]
    rw [execGetColor_of_holds (State.slotOf_of_range h0 hN) (hholds 0 hg) (hholds 1 hb)
      (hholds 2 (by simpa using hr)), packGBR_colourByte hv]
    rfl
  · exact ⟨packGBR g b r, by rw [execPack_eq_next.mp h, State.give_returned], colourByte_packGBR g b r⟩

/-- Settles O46: the begin step leaves the cursor at 0, the last byte leaves it at IDLE, and the operation after it
sees the cursor as it is. -/
theorem handshakeHasNoDelay : Obligations.HandshakeHasNoDelay := by
  refine ⟨fun s hl he hen hi => ?_, fun s hl hen ha hlast => ?_⟩
  · obtain ⟨b, hb⟩ := hl.readable he (a := 0) (Nat.lt_of_lt_of_le (by decide) (Nat.le_add_right 4 _))
    have hbegin : s.beginStep = s.setCur 0#16 := by rw [State.beginStep, if_pos hi]
    have hstart : exec .beginTransfer s = .next (s.setCur 0#16) :=
      (State.needBuffer_of_exists he _).trans (congrArg _ hbegin)
    exact ⟨_, _, b, hstart, execTick_of_holds (s := s.setCur 0#16) hen s.setCur_zero_isIdle hb, hb, by simp, by simp⟩
  · have hactive := State.isIdle_eq_false_of_isActive ha
    obtain ⟨he, hlt⟩ := hl.active hactive
    obtain ⟨b, hb⟩ := hl.readable he hlt
    have hidle : (s.emit b).advance.isIdle = true := State.advance_isIdle_of_last (s := s.emit b) hlast hl.len_le
    exact ⟨_, _, execTick_of_holds hen hactive hb, execIsDone_eq_next.mpr ⟨by simpa using he, rfl⟩, by simp [hidle]⟩

/-- Settles O48. -/
theorem writeIsSeenByTheNextTimingEvent : Obligations.WriteIsSeenByTheNextTimingEvent := by
  intro s t a v hl hen ha hwrite
  have hactive := State.isIdle_eq_false_of_isActive ha
  obtain ⟨he, halt, rfl⟩ := State.memWrite_eq_next.mp hwrite
  have hread := State.memRead_setBuf_write he halt v s.cur.toNat
  by_cases hac : a = s.cur.toNat
  · rw [if_pos hac.symm] at hread
    exact ⟨_, execTick_of_holds hen hactive hread, fun _ => by simp, fun hne => absurd hac hne⟩
  · obtain ⟨b, hb⟩ := hl.readable he (hl.active hactive).2
    rw [if_neg (Ne.symm hac)] at hread
    exact ⟨_, execTick_of_holds hen hactive (hread.trans hb), fun heq => absurd heq hac, fun _ => by simpa using hb⟩

/-- Settles O44. -/
theorem readsHaveNoSideEffect : Obligations.ReadsHaveNoSideEffect := by
  intro s t i h
  refine ⟨?_, ?_, ?_, ?_⟩
  · rintro x rfl
    obtain ⟨_, rfl⟩ | ⟨slot, green, blue, red, _, _, _, _, rfl⟩ := execGetColor_eq_next h
    · exact ⟨0#32, rfl, by decide⟩
    · exact ⟨_, rfl, packGBR_lt green blue red⟩
  · rintro x rfl
    obtain ⟨a, b, _, _, rfl⟩ := execPeek_eq_next h
    exact ⟨_, rfl, by rw [BitVec.toNat_setWidth_of_le (by decide)]; exact b.isLt⟩
  · rintro rfl
    obtain ⟨_, rfl⟩ := execIsDone_eq_next.mp h
    exact ⟨_, rfl, by cases s.isIdle <;> decide⟩
  · rintro r g b rfl
    exact ⟨_, execPack_eq_next.mp h, packGBR_lt g b r⟩

end Sys2Proof.Proofs

/-! SUPPORT. The decoder and the encoder (spec/30_encoding.md): the conditions under which the fields of a word decode,
the round trip in both directions, the rows of the opcode map, and the step that takes a decoded operation; then the six
statements about encoding that follow. -/

namespace Sys2Proof

/-! ## Fields and operands -/

/-- An operation stands where R62 wants zeros exactly when both fields are zero. -/
theorem ifZero_eq_ok_iff {index : BitVec 16} {data : BitVec 32} {i j : Instr} :
    ifZero index data i = .ok j ↔ index = 0#16 ∧ data = 0#32 ∧ i = j := by
  by_cases hx : index = 0#16 <;> by_cases hd : data = 0#32 <;> simp [ifZero, hx, hd]

theorem exists_ifZero_eq_ok_iff {index : BitVec 16} {data : BitVec 32} {i : Instr} :
    (∃ j, ifZero index data i = .ok j) ↔ index = 0#16 ∧ data = 0#32 := by
  simp [ifZero_eq_ok_iff]

/-- Every index field reads as an operand in range (R63). -/
theorem indexFits_toInt (index : BitVec 16) : indexFits index.toInt = true := by
  have hlo := BitVec.le_toInt index
  have hhi := BitVec.toInt_lt (x := index)
  simp only [indexFits, Bool.and_eq_true, decide_eq_true_eq]
  omega

/-- An operand in range survives its index field (R63). -/
theorem toInt_ofInt_of_indexFits {n : Int} (h : indexFits n = true) : (BitVec.ofInt 16 n).toInt = n := by
  simp only [indexFits, Bool.and_eq_true, decide_eq_true_eq] at h
  rw [BitVec.toInt_ofInt]
  exact Int.bmod_eq_of_le (by omega) (by omega)

/-- PACK's operand is put together from its own components when `data[31:24]` is zero (R62). -/
theorem packOperand_of_fields {data : BitVec 32} (h : data.extractLsb' 24 8 = 0#8) :
    packOperand (data.extractLsb' 16 8) (data.extractLsb' 8 8) (data.extractLsb' 0 8) = data := by
  apply BitVec.eq_of_getLsbD_eq
  intro k hk
  have hz (h3 : ¬ k < 24) : data.getLsbD k = false := by
    have := congrArg (·.getLsbD (k - 24)) h
    simpa [show k - 24 < 8 by omega, show 24 + (k - 24) = k by omega] using this
  rw [getLsbD_packOperand]
  by_cases h1 : k < 8
  · simp [h1]
  · by_cases h2 : k < 16
    · simp [h1, h2, show 8 + (k - 8) = k by omega, show k - 8 < 8 by omega]
    · by_cases h3 : k < 24
      · simp [h1, h2, show 16 + (k - 16) = k by omega, show k - 16 < 8 by omega]
      · simp [h1, h2, hz h3, show ¬ k - 16 < 8 by omega]

/-- The decoder's mask of PACK's operand reads `data[31:24]` (R62). -/
theorem and_highMask_eq_zero_iff {data : BitVec 32} :
    data &&& 0xFF000000#32 = 0#32 ↔ data.extractLsb' 24 8 = 0#8 := by
  constructor
  · intro h
    have hbyte : (data &&& 0xFF000000#32).extractLsb' 24 8 = 0#8 := by rw [h]; rfl
    rwa [BitVec.extractLsb'_and, show (0xFF000000#32).extractLsb' 24 8 = BitVec.allOnes 8 from rfl,
      BitVec.and_allOnes] at hbyte
  · intro h
    rw [← packOperand_of_fields h, packOperand_high]

/-! ## The round trip -/

theorem decodeCommand_eq_ok_iff {w : Command} {i : Instr} :
    decodeCommand w = .ok i ↔
      zeroField w = 0#8 ∧ decodeFields (opField w) (indexField w) (dataField w) = .ok i := by
  by_cases h : zeroField w = 0#8 <;> simp [decodeCommand, h]

@[simp] theorem decodeCommand_commandWord (op : BitVec 8) (index : BitVec 16) (data : BitVec 32) :
    decodeCommand (commandWord op index data) = decodeFields op index data := by
  simp [decodeCommand]

/-- Fields that decode hold nothing but the operation they decode to: it is well formed, and its word is made of exactly
these fields. -/
theorem encode_of_decodeFields {op : BitVec 8} {index : BitVec 16} {data : BitVec 32} {i : Instr}
    (h : decodeFields op index data = .ok i) :
    i.wellFormed = true ∧ encode i = .command (commandWord op index data) := by
  have hcode {n : Nat} (hop : op.toNat = n) : op = BitVec.ofNat 8 n := by
    rw [← hop, BitVec.ofNat_toNat, BitVec.setWidth_eq]
  rw [decodeFields] at h
  split at h
  case h_1 hop | h_4 hop | h_10 hop =>
    obtain ⟨_, rfl, rfl⟩ := ifZero_eq_ok_iff.mp h
    exact ⟨indexFits_toInt index, by rw [encode, BitVec.ofInt_toInt, hcode hop]⟩
  case h_2 hop | h_5 hop | h_6 hop | h_7 hop | h_8 hop =>
    obtain ⟨rfl, rfl, rfl⟩ := ifZero_eq_ok_iff.mp h
    exact ⟨rfl, by rw [encode, hcode hop]⟩
  case h_3 hop =>
    cases h
    exact ⟨indexFits_toInt index, by rw [encode, BitVec.ofInt_toInt, hcode hop]⟩
  case h_9 hop =>
    obtain ⟨rfl, hhigh, rfl⟩ := ifZero_eq_ok_iff.mp h
    exact ⟨rfl, by rw [encode, packOperand_of_fields (and_highMask_eq_zero_iff.mp hhigh), hcode hop]⟩
  case h_11 => cases h

theorem decode_encode {i : Instr} (h : i.wellFormed = true) : decode (encode i) = .ok i := by
  cases i
  case construct n | setColor n _ | getColor n | peek n =>
    simp [encode, decode, decodeFields, ifZero_eq_ok_iff, toInt_ofInt_of_indexFits (n := n) h]
  case pack red green blue => simp [encode, decode, decodeFields, ifZero_eq_ok_iff]
  case init | clear | beginTransfer | isDone | refresh | tick => rfl

/-- The decoder is the inverse of the encoder on the well-formed operations. -/
theorem decode_eq_ok_iff {p : Stimulus} {i : Instr} :
    decode p = .ok i ↔ i.wellFormed = true ∧ encode i = p := by
  constructor
  · intro h
    cases p with
    | pulse => cases h; exact ⟨rfl, rfl⟩
    | command w =>
      obtain ⟨hz, hf⟩ := decodeCommand_eq_ok_iff.mp h
      rw [← commandWord_fields hz]
      exact encode_of_decodeFields hf
  · rintro ⟨hwf, rfl⟩
    exact decode_encode hwf

theorem decodeTableWord_eq_some_iff {nbits w : Nat} {i : Instr} :
    decodeTableWord nbits w = some i ↔ decode (tableStimulus nbits w) = .ok i := by
  cases hd : decode (tableStimulus nbits w) <;> simp [decodeTableWord, hd, Except.toOption]

/-! ## The reserved words -/

open Machine in
/-- The decoder gives a word a meaning exactly when R67 does not reserve it. -/
theorem exists_decodeCommand_eq_ok_iff (w : Command) : (∃ i, decodeCommand w = .ok i) ↔ ¬ reservedWord w := by
  by_cases hz : zeroField w = 0#8
  · simp only [decodeCommand, hz, ne_eq, not_true, if_false, reservedWord, decodeFields]
    split
    case h_1 hop | h_2 hop | h_4 hop | h_5 hop | h_6 hop | h_7 hop | h_8 hop | h_10 hop =>
      simp [exists_ifZero_eq_ok_iff, hop, ← BitVec.toNat_inj (x := opField w)]
    case h_3 hop => simp [hop, ← BitVec.toNat_inj (x := opField w)]
    case h_9 hop =>
      simp [exists_ifZero_eq_ok_iff, and_highMask_eq_zero_iff, hop, ← BitVec.toNat_inj (x := opField w)]
    case h_11 =>
      have hop : (opField w).toNat = 0 ∨ 11 ≤ (opField w).toNat := by
        simp only [imp_false] at *
        omega
      exact iff_of_false nofun (not_not_intro (hop.imp (fun h0 => BitVec.eq_of_toNat_eq h0) .inl))
  · simp [decodeCommand, reservedWord, hz]

/-! ## The opcode map -/

/-- Every operation has its row: the laws of the single operations in one statement. -/
theorem opcodeRow_statement (i : Instr) : Laws.OpcodeRow.Statement i := by
  cases i with
  | construct count => exact Laws.OpcodeRow.construct count
  | init => exact Laws.OpcodeRow.init
  | setColor index colour => exact Laws.OpcodeRow.setColor index colour
  | getColor index => exact Laws.OpcodeRow.getColor index
  | clear => exact Laws.OpcodeRow.clear
  | beginTransfer => exact Laws.OpcodeRow.beginTransfer
  | isDone => exact Laws.OpcodeRow.isDone
  | refresh => exact Laws.OpcodeRow.refresh
  | pack red green blue => exact Laws.OpcodeRow.pack red green blue
  | peek index => exact Laws.OpcodeRow.peek index
  | tick => exact Laws.OpcodeRow.tick

/-- A word that decodes selects the row of its operation. -/
theorem selects_row_of_decodeCommand {w : Command} {i : Instr} (h : decodeCommand w = .ok i) :
    ∃ r ∈ opcodeMap, r.mnemonic = i.mnemonic ∧ w &&& r.mask = r.pattern := by
  obtain ⟨_, henc⟩ := decode_eq_ok_iff.mp (show decode (.command w) = .ok i from h)
  have hrow := opcodeRow_statement i
  rwa [Laws.OpcodeRow.Statement, henc] at hrow

theorem opcodeMap_eq_of_mnemonic :
    ∀ r ∈ opcodeMap, ∀ r' ∈ opcodeMap, r.mnemonic = r'.mnemonic → r = r' := by decide

theorem opcodeMap_eq_of_op :
    ∀ r ∈ opcodeMap, ∀ r' ∈ opcodeMap, opField r.pattern = opField r'.pattern → r = r' := by decide

/-- Every row fixes the fields `op` and `zero` whole, at an assigned `op` and at zero. -/
theorem opcodeMap_op_zero : ∀ r ∈ opcodeMap,
    (opField r.mask = BitVec.allOnes 8 ∧ opField r.pattern ≠ 0#8 ∧ (opField r.pattern).toNat < 0x0B) ∧
    zeroField r.mask = BitVec.allOnes 8 ∧ zeroField r.pattern = 0#8 := by decide

/-- Every row fixes at zero the operand fields that R62 says must be zero for its `op`. -/
theorem opcodeMap_operands : ∀ r ∈ opcodeMap,
    ((opField r.pattern).toNat ∉ [0x01, 0x03, 0x04, 0x0A] →
      indexField r.mask = BitVec.allOnes 16 ∧ indexField r.pattern = 0#16) ∧
    ((opField r.pattern).toNat ∉ [0x03, 0x09] →
      dataField r.mask = BitVec.allOnes 32 ∧ dataField r.pattern = 0#32) ∧
    ((opField r.pattern).toNat = 0x09 →
      (dataField r.mask).extractLsb' 24 8 = BitVec.allOnes 8 ∧ (dataField r.pattern).extractLsb' 24 8 = 0#8) := by
  decide

/-- A row is selected field by field. -/
theorem fields_of_and_eq {w m p : Command} (h : w &&& m = p) :
    opField w &&& opField m = opField p ∧ zeroField w &&& zeroField m = zeroField p ∧
      indexField w &&& indexField m = indexField p ∧ dataField w &&& dataField m = dataField p := by
  subst h
  simp only [opField, zeroField, indexField, dataField, BitVec.extractLsb'_and, and_self]

theorem opField_of_selects {w : Command} {r : OpcodeRow} (hr : r ∈ opcodeMap) (h : w &&& r.mask = r.pattern) :
    opField w = opField r.pattern := by
  obtain ⟨⟨hmask, _⟩, _⟩ := opcodeMap_op_zero r hr
  obtain ⟨hop, _⟩ := fields_of_and_eq h
  rwa [hmask, BitVec.and_allOnes] at hop

open Machine in
/-- No word that selects a row is reserved. -/
theorem not_reservedWord_of_selects {w : Command} {r : OpcodeRow} (hr : r ∈ opcodeMap)
    (h : w &&& r.mask = r.pattern) : ¬ reservedWord w := by
  obtain ⟨⟨_, hassigned, hlt⟩, hzmask, hzpattern⟩ := opcodeMap_op_zero r hr
  obtain ⟨hirow, hdrow, hprow⟩ := opcodeMap_operands r hr
  obtain ⟨_, hzero, hindex, hdata⟩ := fields_of_and_eq h
  rw [reservedWord, opField_of_selects hr h]
  rintro (hop | hop | hne | ⟨hop, hne⟩ | ⟨hop, hne⟩ | ⟨hop, hne⟩)
  · exact hassigned hop
  · exact absurd hop (by omega)
  · rw [hzmask, BitVec.and_allOnes, hzpattern] at hzero
    exact hne hzero
  · obtain ⟨hmask, hpattern⟩ := hirow hop
    rw [hmask, BitVec.and_allOnes, hpattern] at hindex
    exact hne hindex
  · obtain ⟨hmask, hpattern⟩ := hdrow hop
    rw [hmask, BitVec.and_allOnes, hpattern] at hdata
    exact hne hdata
  · obtain ⟨hmask, hpattern⟩ := hprow hop
    have hhigh := congrArg (·.extractLsb' 24 8) hdata
    simp only [BitVec.extractLsb'_and, hmask, BitVec.and_allOnes, hpattern] at hhigh
    exact hne hhigh

end Sys2Proof

namespace Sys2Proof.Machine

/-! ## The step that takes an operation -/

/-- HOST's turn with the sequencer free and a valid command word first in the program is that operation (R122). -/
theorem hostTurn_of_decoded {s : State} {w : Command} {ws : List Command} {i : Instr} (hq : s.seq = .idle)
    (hp : s.program = w :: ws) (hd : decode (.command w) = .ok i) : hostTurn s = exec i (s.setProgram ws) := by
  simp [hostTurn, State.cmdReady, State.fetch, hq, hp, hd]

/-- HOST's turn with the sequencer free and an invalid command word first in the program is refused (R67). -/
theorem hostTurn_of_invalid {s : State} {w : Command} {ws : List Command} {reason : Reject} (hq : s.seq = .idle)
    (hp : s.program = w :: ws) (hd : decode (.command w) = .error reason) :
    hostTurn s = .refused (.invalidCommandWord reason) := by
  simp [hostTurn, State.cmdReady, State.fetch, hq, hp, hd]

/-- A timing event that is the next move runs TICK (R118). -/
theorem step_of_tick {s : State} {es : List Event} (h : s.events = .tick :: es) :
    step s = exec .tick (s.setEvents es) := by
  rw [step, State.takeTurn_cons h]

/-- A reserved word has no meaning, and the decoder says why. -/
theorem decode_of_reservedWord {w : Command} (h : reservedWord w) : ∃ reason, decode (.command w) = .error reason := by
  rw [decode]
  cases hd : decodeCommand w with
  | error reason => exact ⟨reason, rfl⟩
  | ok i => exact absurd h ((exists_decodeCommand_eq_ok_iff w).mp ⟨i, hd⟩)

end Sys2Proof.Machine

namespace Sys2Proof.Proofs

open Sys2Proof.Machine

/-- Settles O1. -/
theorem encodedInstructionDecodesToItself : Obligations.EncodedInstructionDecodesToItself :=
  fun _ h => decode_encode h

/-- Settles O2. -/
theorem decodedStimulusEncodesToItself : Obligations.DecodedStimulusEncodesToItself :=
  fun _ _ h => decode_eq_ok_iff.mp h

/-- Settles O3. A word that selects a row is not reserved, so it decodes, and then selects the row of its operation too;
two rows selected by one word have the same `op` and so are one row. -/
theorem decoderFollowsTheOpcodeMap : Obligations.DecoderFollowsTheOpcodeMap := by
  intro w r hr
  constructor
  · intro hsel
    obtain ⟨i, hi⟩ := (exists_decodeCommand_eq_ok_iff w).mpr (not_reservedWord_of_selects hr hsel)
    obtain ⟨r', hr', hm, hsel'⟩ := selects_row_of_decodeCommand hi
    have hop := (opField_of_selects hr hsel).symm.trans (opField_of_selects hr' hsel')
    exact ⟨i, hi, by rw [opcodeMap_eq_of_op r hr r' hr' hop, hm]⟩
  · rintro ⟨i, hi, hm⟩
    obtain ⟨r', hr', hm', hsel⟩ := selects_row_of_decodeCommand hi
    rwa [opcodeMap_eq_of_mnemonic r hr r' hr' (hm.symm.trans hm'.symm)]

/-- Settles O4. -/
theorem reservedWordsAreRefused : Obligations.ReservedWordsAreRefused := by
  refine fun w => ⟨exists_decodeCommand_eq_ok_iff w, fun hres s ws hready hp => ?_⟩
  obtain ⟨reason, hd⟩ := decode_of_reservedWord hres
  obtain ⟨hq, hev⟩ := hready
  exact ⟨reason, (step_of_host hev).trans (hostTurn_of_invalid hq hp hd)⟩

/-- Settles O5: each word evaluates to its operation. -/
theorem wordsWrittenOutDecode : Obligations.WordsWrittenOutDecode :=
  ⟨rfl, rfl, rfl, rfl, rfl, rfl, rfl, rfl, rfl, rfl, rfl⟩

/-- Settles O14: placing a pulse or a word and taking it again leaves the state as it was, but for the sequencer. -/
theorem placedInstructionRunsNext : Obligations.PlacedInstructionRunsNext := by
  intro s nbits w i h
  rw [decodeTableWord_eq_some_iff] at h
  rw [State.withFetchWord]
  cases hp : tableStimulus nbits w with
  | pulse =>
    rw [hp] at h
    cases h
    exact step_of_tick rfl
  | command c =>
    rw [hp] at h
    rw [if_neg (decode_command_ne_tick h)]
    exact (step_of_host (.inr ⟨_, rfl⟩)).trans (hostTurn_of_decoded rfl rfl h)

end Sys2Proof.Proofs

/-! SUPPORT. The frame buffer (spec/40_frame_buffer.md): what CONSTRUCT makes, the first micro-steps of SETCOLOR and
CLEAR, runs in which HOST moves a given number of times however timing events fall between its moves, and operations
that write one byte per move; then the eight statements about the frame buffer that follow. -/

namespace Sys2Proof.Machine

/-! ## CONSTRUCT -/

theorem State.construct_leds (s : State) {n : Nat} (hn : n ≤ Config.nmax) : (s.construct n).leds = n := by
  have hmax : Config.nmax = 10921 := rfl
  rw [State.leds, State.construct_ledCount, BitVec.toNat_ofNat, Nat.mod_eq_of_lt (by omega)]

/-- The buffer CONSTRUCT makes, read through the state: free LED bytes, the latch bytes, and nothing after them
(R80). -/
theorem State.construct_memRead (s : State) {n : Nat} (hn : n ≤ Config.nmax) (a : Nat) :
    (s.construct n).memRead a =
      if a < 3 * n then some (Config.draw (s.draws + a)) else Config.latch[a - 3 * n]? := by
  rw [State.memRead_eq, State.construct_buf, Memory.read_fresh, State.len, s.construct_leds hn]
  by_cases ha : a < 4 + 3 * n
  · rw [if_pos ⟨rfl, ha⟩]
  · rw [if_neg (fun h => ha h.2), if_neg (by omega), List.getElem?_eq_none (by simp [Config.latch]; omega)]

theorem State.construct_latched (s : State) {n : Nat} (hn : n ≤ Config.nmax) : (s.construct n).latched := by
  have hread (k : Nat) : (s.construct n).memRead (3 * n + k) = Config.latch[k]? := by
    rw [s.construct_memRead hn, if_neg (Nat.not_lt.mpr (Nat.le_add_right _ _)), Nat.add_sub_cancel_left]
  rw [State.latched, s.construct_leds hn]
  exact ⟨hread 0, hread 1, hread 2, hread 3⟩

theorem execConstruct_of_range {s : State} {n : Int} (he : s.bufExists = false) (h0 : 0 ≤ n)
    (hn : n.toNat ≤ Config.nmax) : exec (.construct n) s = .next (s.construct n.toNat) := by
  simp [exec, execConstruct, he, countOf_eq_some.mpr ⟨h0, rfl, hn⟩]

/-! ## First micro-steps -/

/-- SETCOLOR on an accepted slot begins with the write of byte 0 of the clamped colour (R81). -/
theorem execSetColor_of_range {s : State} {i : Int} (c : Value) (he : s.bufExists = true) (h0 : 0 ≤ i)
    (h1 : i < s.leds) : exec (.setColor i c) s = s.writeSlotByte i.toNat (clampColour c) 0 := by
  simp [exec, execSetColor, State.needBuffer_of_exists he, State.slotOf_of_range h0 h1]

/-- CLEAR begins with its micro-step at position 0 (R83). -/
theorem execClear_of_exists {s : State} (he : s.bufExists = true) : exec .clear s = s.clearByte .clear 0 :=
  State.needBuffer_of_exists he _

/-- The sequencer's positions in CLEAR and in INIT mean the same micro-step (R83, R100). -/
theorem microStep_of_clearing {s : State} {running : Nat → Sequencer} {k : Nat}
    (hr : running = Sequencer.clear ∨ running = Sequencer.init) (hq : s.seq = running k) :
    microStep s = s.clearByte running k := by
  obtain rfl | rfl := hr <;> rw [microStep, hq]

/-- The begin step in one expression. -/
theorem State.beginStep_eq (s : State) : s.beginStep = { s with cur := if s.isIdle then 0#16 else s.cur } := by
  cases h : s.isIdle <;> simp [State.beginStep, h, State.setCur]

/-- After a begin step the engine is Active, whether it started or was running. -/
theorem State.beginStep_isActive (s : State) : s.beginStep.isActive = true := by
  obtain ⟨_, hb⟩ | ⟨hi, hb⟩ := s.beginStep_cases
  · rw [hb, State.isActive_eq, State.setCur_zero_isIdle]; rfl
  · rw [hb, State.isActive_eq, hi]; rfl

/-- The position of the sequencer plays no part in a micro-step of CLEAR. -/
theorem State.setSeq_clearByte {s : State} (he : s.bufExists = true) (q : Sequencer) (running : Nat → Sequencer)
    (k : Nat) : (s.setSeq q).clearByte running k = s.clearByte running k := by
  by_cases hk : k < 3 * s.leds
  · rw [State.clearByte_of_lt (s := s.setSeq q) he hk, State.clearByte_of_lt he hk]; rfl
  · rw [State.clearByte_of_ge (s := s.setSeq q) (Nat.not_lt.mp hk), State.clearByte_of_ge (Nat.not_lt.mp hk),
      State.beginStep_eq, State.beginStep_eq]; rfl

/-! ## HOST's next command -/

/-- HOST's turn with a well-formed operation next to issue is that operation's first micro-step. -/
theorem hostTurn_of_issues {s : State} {i : Instr} {ws : List Command} (h : s.issues i ws)
    (hwf : i.wellFormed = true) : hostTurn s = exec i (s.setProgram ws) := by
  obtain ⟨hq, w, henc, hp⟩ := h
  exact hostTurn_of_decoded hq hp (henc ▸ decode_encode hwf)

/-- In a legal state the index of an accepted slot fits a command word. -/
theorem Legal.indexFits {s : State} (hl : Legal s) {i : Int} (h0 : 0 ≤ i) (h1 : i < s.leds) :
    indexFits i = true := by
  have hcount := hl.count
  have hmax : Config.nmax = 10921 := rfl
  simp only [Sys2Proof.indexFits, Bool.and_eq_true, decide_eq_true_eq]
  omega

/-! ## Runs with a given number of HOST moves -/

/-- A timing event in a legal state is always answered. -/
theorem execTick_answers {s : State} (hl : Legal s) : ∃ t, exec .tick s = .next t := by
  cases hen : s.en with
  | false => exact ⟨s, by simp [exec, execTick, State.takeTimingEvent, hen]⟩
  | true =>
    cases hi : s.isIdle with
    | true =>
      exact ⟨s.emit Config.filler, by simp [exec, execTick, State.takeTimingEvent, State.emitOneByte, hen, hi]⟩
    | false =>
      obtain ⟨he, hlt⟩ := hl.active hi
      obtain ⟨b, hb⟩ := hl.readable he hlt
      exact ⟨_, execTick_of_holds hen hi hb⟩

/-- No HOST effect changes the run order. -/
theorem HostEffect.events {s t : State} (e : HostEffect s t) : t.events = s.events := by
  cases e with
  | begins q he hq => rw [s.beginStep_eq_setCur]; rfl
  | gives | moves | writes | enables | constructs => rfl

/-- HOST's turn in a legal state does not change the run order. -/
theorem Legal.hostTurn_events {s t : State} (hl : Legal s) (h : hostTurn s = .next t) : t.events = s.events := by
  obtain ⟨ws, e⟩ := Machine.hostTurn_effect hl.sequencer h
  exact e.events

/-- `P j` describes the states after `j` of HOST's `n` moves: timing events keep it, and each HOST move is answered and
takes `P j` to `P (j + 1)`. -/
structure HostProgress (n : Nat) (P : Nat → State → Prop) : Prop where
  schedule : ∀ {j t} es, P j t → P j (t.setEvents es)
  tick : ∀ {j t u}, Legal t → P j t → exec .tick t = .next u → P j u
  host : ∀ {j t}, j < n → Legal t → P j t → ∃ u, hostTurn t = .next u ∧ P (j + 1) u

/-- A stretch of the run order without a reset that holds the rest of HOST's `n` moves ends in a state after all of
them, however timing events fall between them (R49). -/
theorem HostProgress.runSteps {n : Nat} {P : Nat → State → Prop} (hP : HostProgress n P) {es rest : List Event}
    {j : Nat} {s : State} (hl : Legal s) (hs : P j s) (hev : s.events = es ++ rest) (hquiet : quiet es)
    (hcount : j + es.count .host = n) :
    ∃ t, Machine.runSteps es.length s = .next t ∧ Legal t ∧ P n t ∧ t.events = rest := by
  induction es generalizing s j with
  | nil => exact ⟨s, rfl, hl, hcount ▸ hs, hev⟩
  | cons e es ih =>
    suffices h : ∃ u k, step s = .next u ∧ P k u ∧ u.events = es ++ rest ∧ k + es.count .host = n by
      obtain ⟨u, k, hstep, hu, huev, hk⟩ := h
      obtain ⟨t, hrun, ht⟩ := ih (hl.step hstep) hu huev (fun h => hquiet (List.mem_cons_of_mem e h)) hk
      exact ⟨t, by rw [List.length_cons, Machine.runSteps, hstep, thenDo_next, hrun], ht⟩
    have hle := hl.setEvents (es ++ rest)
    cases e with
    | reset => exact absurd List.mem_cons_self hquiet
    | tick =>
      obtain ⟨u, hu⟩ := execTick_answers hle
      refine ⟨u, j, (step_of_tick hev).trans hu, hP.tick hle (hP.schedule _ hs) hu, ?_, by simpa using hcount⟩
      exact (congrArg State.events (execTick_frame hu) :)
    | host =>
      rw [List.count_cons_self] at hcount
      obtain ⟨u, hu, hPu⟩ := hP.host (by omega) hle (hP.schedule _ hs)
      have hstep : step s = hostTurn (s.setEvents (es ++ rest)) := by
        rw [step_of_host (.inr ⟨_, hev⟩), hev]; rfl
      exact ⟨u, j + 1, hstep.trans hu, hPu, hle.hostTurn_events hu, by omega⟩

theorem runSteps_add (m n : Nat) (s : State) : runSteps (m + n) s = thenDo (runSteps m s) (runSteps n) := by
  induction m generalizing s with
  | zero => rw [Nat.zero_add, runSteps, thenDo_next]
  | succ m ih =>
    rw [Nat.succ_add, runSteps, runSteps]
    cases step s with
    | next t => exact ih t
    | fault | refused => rfl

/-- A stretch of the run order can be cut where HOST has made any smaller number of its moves. -/
theorem exists_append_count {es : List Event} {k : Nat} (h : k ≤ es.count .host) :
    ∃ xs ys, es = xs ++ ys ∧ xs.count .host = k := by
  induction es generalizing k with
  | nil => exact ⟨[], [], rfl, (Nat.le_zero.mp h).symm⟩
  | cons e es ih =>
    cases k with
    | zero => exact ⟨[], e :: es, rfl, rfl⟩
    | succ k =>
      by_cases he : e = .host
      · subst he
        obtain ⟨xs, ys, rfl, hk⟩ := ih (k := k) (by rw [List.count_cons_self] at h; omega)
        exact ⟨.host :: xs, ys, rfl, by rw [List.count_cons_self, hk]⟩
      · obtain ⟨xs, ys, rfl, hk⟩ := ih (k := k + 1) (by rwa [List.count_cons_of_ne he] at h)
        exact ⟨e :: xs, ys, rfl, by rw [List.count_cons_of_ne he, hk]⟩

/-! ## What timing events leave alone -/

/-- The state with what a timing event may change, and the schedule, blanked out. -/
def State.hostPart (s : State) : State :=
  { s with cur := Config.idle, out := 0x00#8, trace := [], events := [] }

@[simp] theorem State.hostPart_setEvents (s : State) (es : List Event) : (s.setEvents es).hostPart = s.hostPart := rfl

theorem execTick_hostPart {s t : State} (h : exec .tick s = .next t) : t.hostPart = s.hostPart :=
  (congrArg State.hostPart (execTick_frame h) :)

/-- HOST's moves through a chain of expected states, known up to what timing events change. -/
theorem HostProgress.of_hostPart {n : Nat} {expected : Nat → State}
    (h : ∀ {j t}, j < n → t.hostPart = (expected j).hostPart →
      ∃ u, hostTurn t = .next u ∧ u.hostPart = (expected (j + 1)).hostPart) :
    HostProgress n fun j t => t.hostPart = (expected j).hostPart where
  schedule _ ht := ht
  tick _ ht hu := (execTick_hostPart hu).trans ht
  host hj _ ht := h hj ht

section

variable {s t : State} (h : t.hostPart = s.hostPart)
include h

theorem bufExists_of_hostPart : t.bufExists = s.bufExists := (congrArg State.bufExists h :)
theorem en_of_hostPart : t.en = s.en := (congrArg State.en h :)
theorem ledCount_of_hostPart : t.ledCount = s.ledCount := (congrArg State.ledCount h :)
theorem leds_of_hostPart : t.leds = s.leds := (congrArg State.leds h :)
theorem seq_of_hostPart : t.seq = s.seq := (congrArg State.seq h :)
theorem returned_of_hostPart : t.returned = s.returned := (congrArg State.returned h :)
theorem program_of_hostPart : t.program = s.program := (congrArg State.program h :)
theorem memRead_of_hostPart (a : Nat) : t.memRead a = s.memRead a := (congrArg (State.memRead · a) h :)

theorem issues_of_hostPart {i : Instr} {ws : List Command} (hi : s.issues i ws) : t.issues i ws := by
  rwa [State.issues, seq_of_hostPart h, program_of_hostPart h]

end

/-! ## Operations that write one byte per move -/

/-- What an operation writes: move `j` puts `byte j` at index `base + j` and leaves the sequencer at `seq j`. -/
structure ByteWrites where
  base : Nat
  byte : Nat → Byte
  seq : Nat → Sequencer

/-- SETCOLOR of an accepted slot (R81). -/
def setColorWrites (slot : Nat) (colour : Value) : ByteWrites where
  base := 3 * slot
  byte j := colourByte colour (Fin.ofNat 3 j)
  seq j := afterSlotByte slot colour (Fin.ofNat 3 j)

/-- CLEAR before its begin step (R83). -/
def clearWrites : ByteWrites where
  base := 0
  byte _ := 0x00#8
  seq j := .clear (j + 1)

namespace ByteWrites

variable (p : ByteWrites) (ws : List Command)

/-- One move of the operation; `ws` is what HOST will issue after it. -/
def move (j : Nat) (s : State) : State :=
  ((s.setProgram ws).setBuf (Memory.write s.buf (p.base + j) (p.byte j))).setSeq (p.seq j)

/-- The state after the first `j` moves of the operation, with no timing event between them. -/
def after (s : State) : Nat → State
  | 0 => s
  | j + 1 => p.move ws j (after s j)

theorem move_hostPart {j : Nat} {s t : State} (h : t.hostPart = s.hostPart) :
    (p.move ws j t).hostPart = (p.move ws j s).hostPart :=
  (congrArg (p.move ws j) h :)

variable (s : State) (j : Nat)

@[simp] theorem after_bufExists : (p.after ws s j).bufExists = s.bufExists := by
  induction j with
  | zero => rfl
  | succ j ih => exact ih

@[simp] theorem after_en : (p.after ws s j).en = s.en := by
  induction j with
  | zero => rfl
  | succ j ih => exact ih

@[simp] theorem after_ledCount : (p.after ws s j).ledCount = s.ledCount := by
  induction j with
  | zero => rfl
  | succ j ih => exact ih

@[simp] theorem after_returned : (p.after ws s j).returned = s.returned := by
  induction j with
  | zero => rfl
  | succ j ih => exact ih

@[simp] theorem after_leds : (p.after ws s j).leds = s.leds := by
  rw [State.leds, after_ledCount, State.leds]

@[simp] theorem after_len : (p.after ws s j).len = s.len := by
  rw [State.len, after_leds, State.len]

/-- After `j` moves the first `j` bytes stand at their indices and every other index reads as before. -/
theorem after_memRead {s : State} {j : Nat} (he : s.bufExists = true) (hj : p.base + j ≤ s.len) (a : Nat) :
    (p.after ws s j).memRead a =
      if p.base ≤ a ∧ a < p.base + j then some (p.byte (a - p.base)) else s.memRead a := by
  induction j with
  | zero => rw [if_neg (by omega)]; rfl
  | succ j ih =>
    have hlt : p.base + j < (p.after ws s j).len := by rw [after_len]; omega
    have hwrite := State.memRead_setBuf_write (s := p.after ws s j) (by simpa using he) hlt (p.byte j) a
    calc (p.after ws s (j + 1)).memRead a
        = if a = p.base + j then some (p.byte j) else (p.after ws s j).memRead a := hwrite
      _ = _ := by
        rw [ih (by omega)]
        by_cases ha : a = p.base + j
        · subst ha
          rw [if_pos rfl, if_pos (by omega), Nat.add_sub_cancel_left]
        · rw [if_neg ha]
          exact ite_congr (propext (by omega)) (fun _ => rfl) (fun _ => rfl)

/-- If each of its first `n` moves is as described, the operation reaches the state after them under any schedule. -/
theorem runSteps {p : ByteWrites} {ws : List Command} {s : State} {n : Nat} {es rest : List Event} (hl : Legal s)
    (hmove : ∀ {j t}, j < n → t.hostPart = (p.after ws s j).hostPart → hostTurn t = .next (p.move ws j t))
    (hev : s.events = es ++ rest) (hquiet : quiet es) (hcount : es.count .host = n) :
    ∃ t, Machine.runSteps es.length s = .next t ∧ Legal t ∧ t.hostPart = (p.after ws s n).hostPart ∧
      t.events = rest := by
  have hP : HostProgress n fun j t => t.hostPart = (p.after ws s j).hostPart :=
    .of_hostPart fun hj ht => ⟨_, hmove hj ht, p.move_hostPart ws ht⟩
  exact hP.runSteps (j := 0) hl rfl hev hquiet (by omega)

end ByteWrites

theorem State.setProgram_eq_self {s : State} {ws : List Command} (h : s.program = ws) : s.setProgram ws = s := by
  rw [← h]; rfl

/-! ## The run of SETCOLOR -/

/-- HOST's turn at move `k` of SETCOLOR is the write of byte `k`: the first one takes the command word. -/
theorem hostTurn_setColor {s t : State} {i : Int} {c : Value} {ws : List Command} (hl : Legal s)
    (he : s.bufExists = true) (hi : s.issues (.setColor i c) ws) (h0 : 0 ≤ i) (h1 : i < s.leds) (k : Fin 3)
    (ht : t.hostPart = ((setColorWrites i.toNat (clampColour c)).after ws s k).hostPart) :
    hostTurn t = (t.setProgram ws).writeSlotByte i.toNat (clampColour c) k := by
  have hlater (j : Fin 3) (hq : t.seq = .setColor i.toNat (clampColour c) j) (hp : t.program = ws) :
      hostTurn t = (t.setProgram ws).writeSlotByte i.toNat (clampColour c) j := by
    rw [hostTurn_of_running (by rw [hq]; nofun), microStep, hq, State.setProgram_eq_self hp]
  match k with
  | 0 =>
    have ht : t.hostPart = s.hostPart := ht
    rw [hostTurn_of_issues (issues_of_hostPart ht hi) (hl.indexFits h0 h1)]
    refine execSetColor_of_range c ((bufExists_of_hostPart ht).trans he) h0 ?_
    rw [State.setProgram_leds, leds_of_hostPart ht]
    exact h1
  | 1 => exact hlater 1 (seq_of_hostPart ht) (program_of_hostPart ht)
  | 2 => exact hlater 2 (seq_of_hostPart ht) (program_of_hostPart ht)

/-- SETCOLOR on an accepted slot under any schedule with its three HOST moves. -/
theorem runSteps_setColor {s : State} {i : Int} {c : Value} {ws : List Command} {es rest : List Event}
    (hl : Legal s) (he : s.bufExists = true) (hi : s.issues (.setColor i c) ws) (h0 : 0 ≤ i) (h1 : i < s.leds)
    (hev : s.events = es ++ rest) (hquiet : quiet es) (hcount : es.count .host = 3) :
    ∃ t, runSteps es.length s = .next t ∧ Legal t ∧
      t.hostPart = ((setColorWrites i.toNat (clampColour c)).after ws s 3).hostPart ∧ t.events = rest := by
  refine ByteWrites.runSteps hl (fun {j t} hj ht => ?_) hev hquiet hcount
  obtain ⟨k, rfl⟩ : ∃ k : Fin 3, k.val = j := ⟨⟨j, hj⟩, rfl⟩
  have het : t.bufExists = true := by rw [bufExists_of_hostPart ht, ByteWrites.after_bufExists, he]
  have hlt : i.toNat < t.leds := by rw [leds_of_hostPart ht, ByteWrites.after_leds]; omega
  rw [hostTurn_setColor hl he hi h0 h1 k ht, State.writeSlotByte_of_lt (s := t.setProgram ws) het hlt]
  simp [ByteWrites.move, setColorWrites, slotAddr]

/-- The buffer after SETCOLOR: the slot holds the colour and every other index reads as before (R81). -/
theorem setColorWrites_memRead {s : State} {slot : Nat} (he : s.bufExists = true) (hs : slot < s.leds)
    (colour : Value) (ws : List Command) :
    (∀ k : Fin 3, ((setColorWrites slot colour).after ws s 3).holds (slotAddr slot k) (colourByte colour k)) ∧
    (∀ a, (∀ k : Fin 3, a ≠ slotAddr slot k) →
      ((setColorWrites slot colour).after ws s 3).memRead a = s.memRead a) := by
  have hbase : (setColorWrites slot colour).base = 3 * slot := rfl
  have hread (a : Nat) := (setColorWrites slot colour).after_memRead ws (j := 3) he
    (by rw [hbase, State.len]; omega) a
  refine ⟨fun k => ?_, fun a ha => ?_⟩
  · rw [State.holds, hread, hbase, slotAddr, if_pos (by omega), Nat.add_sub_cancel_left]
    exact congrArg (fun j => some (colourByte colour j)) (Fin.ofNat_val_eq_self k)
  · rw [hread, hbase, if_neg]
    rintro ⟨hlo, hhi⟩
    exact ha ⟨a - 3 * slot, by omega⟩ (Nat.add_sub_of_le hlo).symm

/-! ## The run of GETCOLOR -/

/-- The states before and after an operation of one move. -/
def aroundOneMove (before after : State) : Nat → State
  | 0 => before
  | _ + 1 => after

/-- GETCOLOR of a slot that holds a 24-bit colour, under any schedule with its one HOST move, returns that colour. -/
theorem runSteps_getColor {s : State} {i : Int} {v : Value} {ws : List Command} {es rest : List Event}
    (hl : Legal s) (hi : s.issues (.getColor i) ws) (h0 : 0 ≤ i) (h1 : i < s.leds) (hv : v.toNat < 2 ^ 24)
    (hslot : ∀ k : Fin 3, s.holds (slotAddr i.toNat k) (colourByte v k))
    (hev : s.events = es ++ rest) (hquiet : quiet es) (hcount : es.count .host = 1) :
    ∃ t, runSteps es.length s = .next t ∧ Legal t ∧ t.hostPart = ((s.setProgram ws).give v).hostPart ∧
      t.events = rest := by
  have hP : HostProgress 1 fun j t => t.hostPart = (aroundOneMove s ((s.setProgram ws).give v) j).hostPart := by
    refine .of_hostPart fun {j t} hj ht => ?_
    obtain rfl : j = 0 := by omega
    have ht : t.hostPart = s.hostPart := ht
    have hslot' (k : Fin 3) : (t.setProgram ws).holds (slotAddr i.toNat k) (colourByte v k) :=
      (memRead_of_hostPart ht _).trans (hslot k)
    have hrange : (t.setProgram ws).slotOf i = some i.toNat := by
      refine State.slotOf_of_range h0 ?_
      rw [State.setProgram_leds, leds_of_hostPart ht]
      exact h1
    refine ⟨(t.setProgram ws).give v, ?_, (congrArg (fun u => (u.setProgram ws).give v) ht :)⟩
    rw [hostTurn_of_issues (issues_of_hostPart ht hi) (hl.indexFits h0 h1),
      execGetColor_of_holds hrange (hslot' 0) (hslot' 1) (hslot' 2), packGBR_colourByte hv]
  exact hP.runSteps (j := 0) hl rfl hev hquiet (by omega)

/-! ## The clamp -/

/-- The clamp is the minimum with 0xFFFFFE (R81, R84). -/
theorem clampColour_eq_min (c : Value) : clampColour c = BitVec.ofNat 32 (min c.toNat 0xFFFFFE) := by
  have hat : Config.clampAt.toNat = 0xFFFFFF := rfl
  rw [clampColour]
  split
  · rw [Nat.min_eq_right (by omega)]; rfl
  · rw [Nat.min_eq_left (by omega), BitVec.ofNat_toNat, BitVec.setWidth_eq]

/-- Of the packed colours the clamp changes 0xFF, 0xFF, 0xFF alone (R84). -/
theorem clampColour_packGBR (green blue red : Byte) :
    clampColour (packGBR green blue red) =
      if red = 0xFF#8 ∧ green = 0xFF#8 ∧ blue = 0xFF#8 then packGBR 0xFF#8 0xFF#8 0xFE#8
      else packGBR green blue red := by
  have hg := green.isLt
  have hb := blue.isLt
  have hr := red.isLt
  have hwhite : Config.clampAt.toNat ≤ (packGBR green blue red).toNat ↔
      red = 0xFF#8 ∧ green = 0xFF#8 ∧ blue = 0xFF#8 := by
    have hat : Config.clampAt.toNat = 0xFFFFFF := rfl
    rw [hat, packGBR_toNat, ← BitVec.toNat_inj, ← BitVec.toNat_inj, ← BitVec.toNat_inj]
    simp only [BitVec.reduceToNat]
    omega
  rw [clampColour]
  exact ite_congr (propext hwhite) (fun _ => by decide) (fun _ => rfl)

/-! ## The run of CLEAR -/

/-- HOST's turn after `j` moves of CLEAR is the micro-step at position `j`: the first one takes the command word. -/
theorem hostTurn_clear {s t : State} {ws : List Command} {j : Nat} (he : s.bufExists = true)
    (hi : s.issues .clear ws) (ht : t.hostPart = (clearWrites.after ws s j).hostPart) :
    hostTurn t = (t.setProgram ws).clearByte .clear j := by
  cases j with
  | zero =>
    have ht : t.hostPart = s.hostPart := ht
    rw [hostTurn_of_issues (issues_of_hostPart ht hi) rfl]
    exact execClear_of_exists ((bufExists_of_hostPart ht).trans he)
  | succ j =>
    have hq : t.seq = .clear (j + 1) := seq_of_hostPart ht
    have hp : t.program = ws := program_of_hostPart ht
    rw [hostTurn_of_running (by rw [hq]; nofun), microStep_of_clearing (.inl rfl) hq, State.setProgram_eq_self hp]

/-- The writes of CLEAR under any schedule with their 3N HOST moves. -/
theorem runSteps_clearWrites {s : State} {ws : List Command} {es rest : List Event} (hl : Legal s)
    (he : s.bufExists = true) (hi : s.issues .clear ws) (hev : s.events = es ++ rest) (hquiet : quiet es)
    (hcount : es.count .host = 3 * s.leds) :
    ∃ t, runSteps es.length s = .next t ∧ Legal t ∧
      t.hostPart = (clearWrites.after ws s (3 * s.leds)).hostPart ∧ t.events = rest := by
  refine ByteWrites.runSteps hl (fun {j t} hj ht => ?_) hev hquiet hcount
  have het : t.bufExists = true := by rw [bufExists_of_hostPart ht, ByteWrites.after_bufExists, he]
  have hlt : j < 3 * t.leds := by rw [leds_of_hostPart ht, ByteWrites.after_leds]; exact hj
  rw [hostTurn_clear he hi ht, State.clearByte_of_lt (s := t.setProgram ws) het hlt]
  simp [ByteWrites.move, clearWrites]

/-- After the writes of CLEAR every LED byte is 0x00. -/
theorem clearWrites_dark {s : State} (he : s.bufExists = true) (ws : List Command) :
    (clearWrites.after ws s (3 * s.leds)).dark := by
  have hbase : clearWrites.base = 0 := rfl
  intro a ha
  rw [ByteWrites.after_leds] at ha
  rw [State.holds, clearWrites.after_memRead ws he (by rw [hbase, State.len]; omega), hbase, if_pos (by omega)]
  rfl

/-- CLEAR under any schedule with its 3N + 1 HOST moves, the last of which is the begin step. -/
theorem runSteps_clear {s : State} {ws : List Command} {es rest : List Event} (hl : Legal s)
    (he : s.bufExists = true) (hi : s.issues .clear ws) (hev : s.events = es ++ .host :: rest) (hquiet : quiet es)
    (hcount : es.count .host = 3 * s.leds) :
    ∃ t, runSteps (es.length + 1) s = .next t ∧ Legal t ∧ t.isActive = true ∧
      t.hostPart = (((clearWrites.after ws s (3 * s.leds)).setProgram ws).setSeq .idle).hostPart ∧
      t.events = rest := by
  obtain ⟨u, hrun, hlu, hu, hrest⟩ := runSteps_clearWrites hl he hi hev hquiet hcount
  have hleds : u.leds = s.leds := by rw [leds_of_hostPart hu, ByteWrites.after_leds]
  have hge : 3 * ((u.setEvents rest).setProgram ws).leds ≤ 3 * s.leds := Nat.le_of_eq (congrArg (3 * ·) hleds)
  have hstep : step u = .next (((u.setEvents rest).setProgram ws).beginStep.setSeq .idle) := by
    rw [step_of_host (.inr ⟨rest, hrest⟩), hrest, List.tail_cons, hostTurn_clear he hi (t := u.setEvents rest) hu,
      State.clearByte_of_ge hge]
  refine ⟨_, ?_, hlu.step hstep, State.beginStep_isActive _, ?_, ?_⟩
  · rw [runSteps_add, hrun, thenDo_next, runSteps, hstep]; rfl
  · rw [State.beginStep_eq_setCur]
    exact congrArg (fun x => (x.setProgram ws).setSeq .idle) hu
  · rw [State.beginStep_eq_setCur]; rfl

end Sys2Proof.Machine

namespace Sys2Proof.Proofs

open Sys2Proof.Machine

/-- Settles O21: the run ends in the state after SETCOLOR's three writes, up to what timing events change. -/
theorem setColorStoresItsColourUnderAnySchedule : Obligations.SetColorStoresItsColourUnderAnySchedule := by
  intro s i c ws es rest hl he hi h0 h1 hev hquiet hcount
  obtain ⟨t, hrun, _, ht, hrest⟩ := runSteps_setColor hl he hi h0 h1 hev hquiet hcount
  obtain ⟨hslot, hother⟩ := setColorWrites_memRead he (by omega : i.toNat < s.leds) (clampColour c) ws
  refine ⟨t, hrun, seq_of_hostPart ht, program_of_hostPart ht, hrest, ?_, ?_, ?_, ?_, fun k => ?_, fun a ha => ?_⟩
  · rw [returned_of_hostPart ht, ByteWrites.after_returned]
  · rw [bufExists_of_hostPart ht, ByteWrites.after_bufExists, he]
  · rw [en_of_hostPart ht, ByteWrites.after_en]
  · rw [ledCount_of_hostPart ht, ByteWrites.after_ledCount]
  · exact (memRead_of_hostPart ht _).trans (hslot k)
  · exact (memRead_of_hostPart ht a).trans (hother a ha)

/-- Settles O22: the stretch is cut after HOST's third move, where SETCOLOR is complete and GETCOLOR is next. -/
theorem colourRoundTripIsTheClamp : Obligations.ColourRoundTripIsTheClamp := by
  refine ⟨fun s i c w ws es rest hl he hw hi h0 h1 hev hquiet hcount => ?_, fun r g b => clampColour_packGBR g b r⟩
  obtain ⟨xs, ys, rfl, hxs⟩ := exists_append_count (es := es) (k := 3) (by omega)
  rw [List.count_append, hxs] at hcount
  rw [quiet, List.mem_append, not_or] at hquiet
  obtain ⟨hqxs, hqys⟩ := hquiet
  obtain ⟨t, hrunSet, hlt, ht, hys⟩ :=
    runSteps_setColor hl he hi h0 h1 (hev.trans (List.append_assoc xs ys rest)) hqxs hxs
  obtain ⟨hslot, _⟩ := setColorWrites_memRead he (by omega : i.toNat < s.leds) (clampColour c) (w :: ws)
  have hissues : t.issues (.getColor i) ws := ⟨seq_of_hostPart ht, w, hw, program_of_hostPart ht⟩
  have hleds : i < t.leds := by rw [leds_of_hostPart ht, ByteWrites.after_leds]; exact h1
  have hclamp : (clampColour c).toNat < 2 ^ 24 := Nat.lt_of_le_of_lt (clampColour_le c) (by decide)
  obtain ⟨u, hrunGet, _, hu, hrest⟩ := runSteps_getColor hlt hissues h0 hleds hclamp
    (fun k => (memRead_of_hostPart ht _).trans (hslot k)) hys hqys (by omega)
  refine ⟨u, ?_, (seq_of_hostPart hu).trans (seq_of_hostPart ht), program_of_hostPart hu, hrest, ?_⟩
  · rw [List.length_append, runSteps_add, hrunSet, thenDo_next, hrunGet]
  · rw [returned_of_hostPart hu, State.give_returned, State.setProgram_returned, returned_of_hostPart ht,
      ByteWrites.after_returned, clampColour_eq_min]

/-- Settles O25: the run ends in the state after CLEAR's 3N writes with HOST free, up to what timing events change. -/
theorem clearDarkensTheStripUnderAnySchedule : Obligations.ClearDarkensTheStripUnderAnySchedule := by
  intro s ws es rest hl he hi hev hquiet hcount
  obtain ⟨t, hrun, hlt, hactive, ht, hrest⟩ := runSteps_clear hl he hi hev hquiet hcount
  have hbuf : t.bufExists = true := (bufExists_of_hostPart ht).trans ((clearWrites.after_bufExists ws s _).trans he)
  refine ⟨t, hrun, seq_of_hostPart ht, program_of_hostPart ht, hrest, fun a ha => ?_, hlt.latch hbuf, hactive, hbuf,
    (en_of_hostPart ht).trans (clearWrites.after_en ws s _),
    (ledCount_of_hostPart ht).trans (clearWrites.after_ledCount ws s _),
    (returned_of_hostPart ht).trans (clearWrites.after_returned ws s _)⟩
  rw [leds_of_hostPart ht] at ha
  exact (memRead_of_hostPart ht a).trans (clearWrites_dark he ws a ha)

/-- Settles O15. -/
theorem constructCreatesTheBuffer : Obligations.ConstructCreatesTheBuffer := by
  intro s n he h0 hn
  have hmax : n.toNat ≤ Config.nmax := by have : Config.nmax = 10921 := rfl; omega
  have hleds := s.construct_leds hmax
  have hlen : (s.construct n.toNat).len = 4 + 3 * n.toNat := by rw [State.len, hleds]
  refine ⟨s.construct n.toNat, execConstruct_of_range he h0 hmax, rfl, by omega, by omega,
    s.construct_latched hmax, rfl, fun a ha => ⟨Config.draw (s.draws + a), ?_⟩, fun a ha => ?_,
    Memory.fresh_wf _ _, rfl, fun hl => ?_⟩
  · rw [State.holds, s.construct_memRead hmax, if_pos (hleds ▸ ha)]
  · rw [State.memRead_eq, if_neg (fun h => Nat.not_lt.mpr ha h.2)]
  · obtain ⟨_, hen, _, _⟩ := hl.absent he
    exact ⟨hen, (hl.silent hen).1⟩

/-- Settles O20. -/
theorem setColorBeginsWithItsFirstByte : Obligations.SetColorBeginsWithItsFirstByte := by
  intro s i c he h0 h1
  have hslot : i.toNat < s.leds := by omega
  have haddr : slotAddr i.toNat 0 < s.len := Nat.lt_of_lt_of_le (slotAddr_lt hslot 0) (Nat.le_add_left _ _)
  exact ⟨_, (execSetColor_of_range c he h0 h1).trans (State.writeSlotByte_of_lt he hslot _ 0),
    fun a => State.memRead_setBuf_write he haddr _ a, rfl⟩

/-- Settles O23. -/
theorem getColorReturnsThePackedSlot : Obligations.GetColorReturnsThePackedSlot := by
  intro s i he h0 h1
  have hrange := State.slotOf_of_range h0 h1
  refine ⟨fun g b r hg hb hr => ⟨packGBR g b r, packGBR_toNat g b r, execGetColor_of_holds hrange hg hb hr⟩,
    fun hl => ?_⟩
  have hread (k : Fin 3) : ∃ b, s.holds (slotAddr i.toNat k) b :=
    hl.readable he (Nat.lt_of_lt_of_le (slotAddr_lt (by omega) k) (Nat.le_add_left _ _))
  obtain ⟨g, hg⟩ := hread 0
  obtain ⟨b, hb⟩ := hread 1
  obtain ⟨r, hr⟩ := hread 2
  exact ⟨_, execGetColor_of_holds hrange hg hb hr⟩

/-- Settles O24. -/
theorem clearMovesOneByteAtATime : Obligations.ClearMovesOneByteAtATime := by
  intro s he
  have hwrites (running : Nat → Sequencer) (k : Nat) (hk : k < 3 * s.leds) : ∃ t, s.clearByte running k = .next t ∧
      (∀ a, t.memRead a = if a = k then some 0x00#8 else s.memRead a) ∧
      t = { s with buf := t.buf, seq := running (k + 1) } :=
    ⟨_, State.clearByte_of_lt he hk,
      fun a => State.memRead_setBuf_write he (Nat.lt_of_lt_of_le hk (Nat.le_add_left _ _)) _ a, rfl⟩
  have hbegins (running : Nat → Sequencer) (k : Nat) (hk : k = 3 * s.leds) : s.clearByte running k =
      .next { s with cur := if s.isIdle then 0#16 else s.cur, seq := .idle } := by
    rw [State.clearByte_of_ge (Nat.le_of_eq hk.symm), State.beginStep_eq]; rfl
  rw [execClear_of_exists he]
  refine ⟨?_, fun hpos => hwrites _ 0 (by omega), fun hzero => hbegins _ 0 (by omega), fun running k hr hq => ?_⟩
  · rw [microStep_of_clearing (.inl rfl) (State.setSeq_seq s (.clear 0)), State.setSeq_clearByte he]
  · rw [microStep_of_clearing hr hq]
    exact ⟨hwrites running k, hbegins running k⟩

/-- Settles O45. -/
theorem addressesAndCursorNeverWrap : Obligations.AddressesAndCursorNeverWrap := by
  intro s hl
  have hlen := hl.len_le
  have hL : s.len = 4 + 3 * s.leds := rfl
  refine ⟨hlen, fun slot k hs => ?_, fun ha => ?_⟩
  · have haddr := slotAddr_lt hs k
    exact ⟨by omega, haddr⟩
  · obtain ⟨_, hlt⟩ := hl.active (State.isIdle_eq_false_of_isActive ha)
    have hnext : (s.cur + 1#16).toNat = s.cur.toNat + 1 := by
      simp only [BitVec.toNat_add, BitVec.reduceToNat]; omega
    refine ⟨hnext, hlt, ?_⟩
    rw [BitVec.getLsbD, hnext]
    exact Nat.testBit_lt_two_pow (by omega)

end Sys2Proof.Proofs

/-! SUPPORT. The transfer engine (spec/41_transfer_engine.md): the handshake bit as a bound on the cursor, what TICK,
BEGIN, ISDONE and REFRESH do, a transfer that only timing events touch, byte by byte, and a transfer with any HOST moves
inside it; then the seven statements about the transfer engine that follow. -/

namespace Sys2Proof.Machine

/-! ## The handshake bit and the cursor -/

/-- H is the cursor's sign (R26). -/
theorem State.isIdle_eq_msb (s : State) : s.isIdle = s.cur.msb := by
  rw [State.isIdle, State.handshake, BitVec.msb_eq_getLsbD_last]

/-- A cursor that is an index is Active (R90). -/
theorem State.isIdle_of_cur_lt {s : State} (h : s.cur.toNat < 32768) : s.isIdle = false := by
  rw [State.isIdle_eq_msb, BitVec.msb_eq_decide, decide_eq_false_iff_not]
  exact Nat.not_le.mpr h

/-- The cursor when the bytes below index `k` are sent: index `k`, or IDLE at the end of the buffer (R25). -/
def State.cursorAt (s : State) (k : Nat) : CursorWord := if k = s.len then Config.idle else BitVec.ofNat 16 k

@[simp] theorem State.cursorAt_len (s : State) : s.cursorAt s.len = Config.idle := if_pos rfl

@[simp] theorem State.cursorAt_zero (s : State) : s.cursorAt 0 = 0#16 := by
  rw [State.cursorAt, if_neg (by rw [State.len]; omega)]

theorem State.cursorAt_toNat {s : State} {k : Nat} (hk : k < s.len) (hl : s.len ≤ 32767) :
    (s.cursorAt k).toNat = k := by
  rw [State.cursorAt, if_neg (Nat.ne_of_lt hk), BitVec.toNat_ofNat, Nat.mod_eq_of_lt (by omega)]

/-- The cursor of an Active engine moves to the position one on, with no wrap (R91, R98). -/
theorem State.advance_eq {s : State} (hlt : s.cur.toNat < s.len) (hl : s.len ≤ 32767) :
    s.advance = s.setCur (s.cursorAt (s.cur.toNat + 1)) := by
  have hnat : (s.cur + 1#16).toNat = s.cur.toNat + 1 := by
    simp only [BitVec.toNat_add, BitVec.reduceToNat]; omega
  have hword : s.cur + 1#16 = BitVec.ofNat 16 (s.cur.toNat + 1) := by
    rw [← hnat, BitVec.ofNat_toNat, BitVec.setWidth_eq]
  rw [State.cursorAt, ← hword, ← hnat, State.advance]

/-! ## What the engine's operations do -/

/-- While the handler is off TICK does nothing (R22). -/
theorem execTick_of_disabled {s : State} (hen : s.en = false) : exec .tick s = .next s := by
  simp [exec, execTick, State.takeTimingEvent, hen]

/-- While Idle TICK emits the filler (R91). -/
theorem execTick_of_idle {s : State} (hen : s.en = true) (hi : s.isIdle = true) :
    exec .tick s = .next (s.emit Config.filler) := by
  simp [exec, execTick, State.takeTimingEvent, State.emitOneByte, hen, hi]

/-- While Active TICK emits the byte at the cursor and moves the cursor one position on (R91). -/
theorem execTick_of_active {s : State} (hl : Legal s) (hen : s.en = true) (hi : s.isIdle = false) :
    ∃ b, s.holds s.cur.toNat b ∧ exec .tick s = .next ((s.emit b).setCur (s.cursorAt (s.cur.toNat + 1))) := by
  obtain ⟨he, hlt⟩ := hl.active hi
  obtain ⟨b, hb⟩ := hl.readable he hlt
  exact ⟨b, hb, by rw [execTick_of_holds hen hi hb, State.advance_eq (s := s.emit b) hlt hl.len_le]; rfl⟩

theorem execBegin_of_exists {s : State} (he : s.bufExists = true) : exec .beginTransfer s = .next s.beginStep :=
  State.needBuffer_of_exists he _

theorem execIsDone_of_exists {s : State} (he : s.bufExists = true) :
    exec .isDone s = .next (s.give (if s.isIdle then 1#32 else 0#32)) :=
  execIsDone_eq_next.mpr ⟨he, rfl⟩

theorem execRefresh_of_exists {s : State} (he : s.bufExists = true) :
    exec .refresh s = .next (s.beginStep.setSeq .refresh) :=
  State.needBuffer_of_exists he _

/-- All that CONSTRUCT can do where no buffer exists (R80). -/
theorem execConstruct_eq_next_of_absent {s t : State} {n : Int} (he : s.bufExists = false)
    (h : exec (.construct n) s = .next t) : ∃ m, t = s.construct m := by
  simp only [exec, execConstruct, he, Bool.false_eq_true, if_false] at h
  split at h
  · cases h
  · next m _ => cases h; exact ⟨m, rfl⟩

/-- A poll of REFRESH in one expression (R95). -/
theorem microStep_of_refresh {s : State} (hq : s.seq = .refresh) :
    microStep s = .next (if s.isIdle then s.setSeq .idle else s) := by
  rw [microStep, hq]
  obtain ⟨hi, hp⟩ | ⟨hi, hp⟩ := s.poll_cases
  · simp [hi, hp]
  · have hself : s.setSeq .refresh = s := by rw [← hq, State.setSeq_seq_self]
    simp [hi, hp, hself]

/-- While REFRESH runs HOST's turn is a poll. -/
theorem hostTurn_of_refresh {s : State} (hq : s.seq = .refresh) :
    hostTurn s = .next (if s.isIdle then s.setSeq .idle else s) :=
  (hostTurn_of_running (by rw [hq]; nofun)).trans (microStep_of_refresh hq)

/-! ## Steps and runs -/

theorem step_of_host_cons {s : State} {es : List Event} (h : s.events = .host :: es) :
    step s = hostTurn (s.setEvents es) := by
  rw [step_of_host (.inr ⟨es, h⟩), h, List.tail_cons]

/-- The step in which HOST issues an operation. -/
theorem step_of_issues {s : State} {i : Instr} {ws : List Command} {es : List Event} (hev : s.events = .host :: es)
    (hi : s.issues i ws) (hwf : i.wellFormed = true) : step s = exec i ((s.setEvents es).setProgram ws) :=
  (step_of_host_cons hev).trans (hostTurn_of_issues (s := s.setEvents es) hi hwf)

theorem runSteps_succ_of_step {s t : State} (h : step s = .next t) (n : Nat) :
    runSteps (n + 1) s = runSteps n t := by
  rw [runSteps, h, thenDo_next]

theorem runSteps_add_of_run {s t : State} {m : Nat} (h : runSteps m s = .next t) (n : Nat) :
    runSteps (m + n) s = runSteps n t := by
  rw [runSteps_add, h, thenDo_next]

/-- With the engine Idle each timing event sends a filler byte (R91). -/
theorem runSteps_fillers {s : State} {n : Nat} {rest : List Event} (hen : s.en = true) (hi : s.isIdle = true)
    (hev : s.events = List.replicate n .tick ++ rest) :
    ∃ t, runSteps n s = .next t ∧ t.hostPart = s.hostPart ∧ t.cur = s.cur ∧
      t.trace = s.trace ++ List.replicate n Config.filler ∧ t.events = rest := by
  induction n generalizing s with
  | zero => exact ⟨s, rfl, rfl, rfl, (List.append_nil _).symm, hev⟩
  | succ n ih =>
    have hstep := (step_of_tick hev).trans
      (execTick_of_idle (s := s.setEvents (List.replicate n .tick ++ rest)) hen hi)
    obtain ⟨t, hrun, hhost, hcur, htrace, hrest⟩ :=
      ih (s := (s.setEvents (List.replicate n .tick ++ rest)).emit Config.filler) hen hi rfl
    refine ⟨t, (runSteps_succ_of_step hstep n).trans hrun, hhost, hcur, ?_, hrest⟩
    rw [htrace, List.replicate_succ, List.append_cons]; rfl

/-! ## A transfer that HOST does not touch -/

theorem buf_of_hostPart {s t : State} (h : t.hostPart = s.hostPart) : t.buf = s.buf := (congrArg State.buf h :)
theorem len_of_hostPart {s t : State} (h : t.hostPart = s.hostPart) : t.len = s.len := (congrArg State.len h :)
theorem content_of_hostPart {s t : State} (h : t.hostPart = s.hostPart) : t.content = s.content :=
  (congrArg State.content h :)

/-- `t` is `s` after the first `k` bytes of a transfer begun in `s`, the handler on, with nothing else done but the
schedule followed (R96). -/
structure SentBytes (s : State) (k : Nat) (t : State) : Prop where
  legal : Legal t
  enabled : t.en = true
  hostPart : t.hostPart = s.hostPart
  cur : t.cur = s.cursorAt k
  trace : t.trace = s.trace ++ s.content.take k

/-- A transfer just begun has sent nothing. -/
theorem SentBytes.zero {s : State} (hl : Legal s) (hen : s.en = true) (hcur : s.cur = 0#16) : SentBytes s 0 s :=
  ⟨hl, hen, rfl, by rw [hcur, State.cursorAt_zero], by rw [List.take_zero, List.append_nil]⟩

namespace SentBytes

variable {s t : State} {k : Nat}

theorem setEvents (h : SentBytes s k t) (es : List Event) : SentBytes s k (t.setEvents es) :=
  ⟨h.legal.setEvents es, h.enabled, h.hostPart, h.cur, h.trace⟩

theorem len_le (h : SentBytes s k t) : s.len ≤ 32767 := len_of_hostPart h.hostPart ▸ h.legal.len_le

/-- Before the last byte is sent the cursor is the number of bytes sent. -/
theorem cur_toNat (h : SentBytes s k t) (hk : k < s.len) : t.cur.toNat = k := by
  rw [h.cur, State.cursorAt_toNat hk h.len_le]

/-- Before the last byte is sent the engine is Active. -/
theorem isIdle_of_lt (h : SentBytes s k t) (hk : k < s.len) : t.isIdle = false := by
  have hle := h.len_le
  exact State.isIdle_of_cur_lt (by rw [h.cur_toNat hk]; omega)

/-- The engine is Idle exactly when the whole buffer is sent. -/
theorem isIdle_iff (h : SentBytes s k t) (hk : k ≤ s.len) : t.isIdle = true ↔ k = s.len := by
  refine ⟨fun hi => Nat.le_antisymm hk (Nat.not_lt.mp fun hlt => ?_), ?_⟩
  · exact absurd (hi.symm.trans (h.isIdle_of_lt hlt)) (by decide)
  · rintro rfl
    exact State.isIdle_of_cur (h.cur.trans s.cursorAt_len)

/-- A timing event sends byte `k`. -/
theorem tick (h : SentBytes s k t) (hk : k < s.len) : ∃ u, exec .tick t = .next u ∧ SentBytes s (k + 1) u := by
  have hi := h.isIdle_of_lt hk
  obtain ⟨he, _⟩ := h.legal.active hi
  obtain ⟨b, hb, hu⟩ := execTick_of_active h.legal h.enabled hi
  have hbyte : s.content[k]? = some b := by
    rw [← content_of_hostPart h.hostPart, h.legal.content_get he, ← hb, h.cur_toNat hk]
  refine ⟨_, hu, h.legal.execTick hu, h.enabled, h.hostPart, ?_, ?_⟩
  · rw [State.setCur_cur, h.cur_toNat hk, State.cursorAt, State.cursorAt, len_of_hostPart h.hostPart]
  · rw [State.setCur_trace, State.emit_trace, h.trace, List.append_assoc, List.take_add_one, hbyte]; rfl

/-- A stretch of timing events, with REFRESH's polls anywhere before the last byte, sends one byte for each timing
event. -/
theorem runSteps {es rest : List Event} (h : SentBytes s k t) (hev : t.events = es ++ rest) (hquiet : quiet es)
    (hk : k + es.count .tick ≤ s.len) (hpoll : .host ∈ es → s.seq = .refresh ∧ k + es.count .tick < s.len) :
    ∃ u, Machine.runSteps es.length t = .next u ∧ SentBytes s (k + es.count .tick) u ∧ u.events = rest := by
  induction es generalizing t k with
  | nil => exact ⟨t, rfl, h, hev⟩
  | cons e es ih =>
    suffices hmove : ∃ u j, step t = .next u ∧ SentBytes s j u ∧ u.events = es ++ rest ∧
        j + es.count .tick = k + (e :: es).count .tick by
      obtain ⟨u, j, hstep, hu, huev, hj⟩ := hmove
      obtain ⟨v, hrun, hv⟩ := ih hu huev (fun hm => hquiet (List.mem_cons_of_mem e hm)) (hj ▸ hk)
        (fun hm => hj ▸ hpoll (List.mem_cons_of_mem e hm))
      exact ⟨v, (runSteps_succ_of_step hstep _).trans hrun, hj ▸ hv⟩
    have hnext := h.setEvents (es ++ rest)
    cases e with
    | reset => exact absurd List.mem_cons_self hquiet
    | tick =>
      rw [List.count_cons_self] at hk ⊢
      obtain ⟨u, hu, hsent⟩ := hnext.tick (by omega)
      exact ⟨u, k + 1, (step_of_tick hev).trans hu, hsent, (congrArg State.events (execTick_frame hu) :), by omega⟩
    | host =>
      obtain ⟨hq, hlt⟩ := hpoll List.mem_cons_self
      have hcount : (Event.host :: es).count .tick = es.count .tick := List.count_cons_of_ne (by decide)
      have hturn : hostTurn (t.setEvents (es ++ rest)) = .next (t.setEvents (es ++ rest)) := by
        rw [hostTurn_of_refresh ((seq_of_hostPart hnext.hostPart).trans hq), hnext.isIdle_of_lt (by omega)]; rfl
      exact ⟨_, k, (step_of_host_cons hev).trans hturn, hnext, rfl, by rw [hcount]⟩

/-- The last byte ends the transfer: the engine is Idle and sends fillers from then on (R91, R96). -/
theorem runSteps_past_end {before rest : List Event} {late : Nat} (h : SentBytes s k t)
    (hev : t.events = before ++ ([.tick] ++ (List.replicate late .tick ++ rest))) (hquiet : quiet before)
    (hpoll : s.seq = .refresh) (hk : k + before.count .tick + 1 = s.len) :
    ∃ u, Machine.runSteps (before.length + (1 + late)) t = .next u ∧ u.hostPart = s.hostPart ∧
      u.cur = Config.idle ∧ u.trace = s.trace ++ s.content ++ List.replicate late Config.filler ∧ u.events = rest := by
  have hlt : k + before.count .tick < s.len := by omega
  obtain ⟨v, hrunBefore, hv, hvev⟩ := h.runSteps hev hquiet (Nat.le_of_lt hlt) fun _ => ⟨hpoll, hlt⟩
  obtain ⟨w, hrunLast, hw, hwev⟩ := hv.runSteps (es := [.tick]) hvev (by decide) (Nat.le_of_eq hk) (by simp)
  have hsent : SentBytes s s.len w := hk ▸ hw
  have hwidle : w.cur = Config.idle := hsent.cur.trans s.cursorAt_len
  obtain ⟨u, hrunLate, hhost, hcur, htrace, hrest⟩ :=
    runSteps_fillers hsent.enabled (State.isIdle_of_cur hwidle) hwev
  refine ⟨u, ?_, hhost.trans hsent.hostPart, hcur.trans hwidle, ?_, hrest⟩
  · rw [runSteps_add_of_run hrunBefore]
    exact (runSteps_add_of_run hrunLast late).trans hrunLate
  · obtain ⟨he, _⟩ := hv.legal.active (hv.isIdle_of_lt hlt)
    have hlength := hv.legal.content_length he
    rw [content_of_hostPart hv.hostPart, len_of_hostPart hv.hostPart] at hlength
    rw [htrace, hsent.trace, List.take_of_length_le (Nat.le_of_eq hlength)]

end SentBytes

/-- The state in which HOST's BEGIN or REFRESH leaves an Idle engine: its word taken, the cursor at index 0, the
sequencer at `q`. -/
def State.begun (s : State) (ws : List Command) (es : List Event) (q : Sequencer) : State :=
  (((s.setEvents es).setProgram ws).setCur 0#16).setSeq q

@[simp] theorem State.begun_len (s : State) (ws : List Command) (es : List Event) (q : Sequencer) :
    (s.begun ws es q).len = s.len := rfl
@[simp] theorem State.begun_buf (s : State) (ws : List Command) (es : List Event) (q : Sequencer) :
    (s.begun ws es q).buf = s.buf := rfl
@[simp] theorem State.begun_events (s : State) (ws : List Command) (es : List Event) (q : Sequencer) :
    (s.begun ws es q).events = es := rfl

theorem State.beginStep_of_idle {s : State} (hi : s.isIdle = true) : s.beginStep = s.setCur 0#16 := if_pos hi

/-- HOST's BEGIN from Idle (R92). -/
theorem step_of_begin {s : State} {ws : List Command} {es : List Event} (he : s.bufExists = true)
    (hi : s.isIdle = true) (hissues : s.issues .beginTransfer ws) (hev : s.events = .host :: es) :
    step s = .next (s.begun ws es .idle) := by
  have hq : s.seq = .idle := hissues.1
  rw [step_of_issues hev hissues rfl, execBegin_of_exists (s := (s.setEvents es).setProgram ws) he,
    State.beginStep_of_idle (s := (s.setEvents es).setProgram ws) hi, State.begun, ← hq]
  rfl

/-- HOST's REFRESH from Idle (R95). -/
theorem step_of_refresh {s : State} {ws : List Command} {es : List Event} (he : s.bufExists = true)
    (hi : s.isIdle = true) (hissues : s.issues .refresh ws) (hev : s.events = .host :: es) :
    step s = .next (s.begun ws es .refresh) := by
  rw [step_of_issues hev hissues rfl, execRefresh_of_exists (s := (s.setEvents es).setProgram ws) he,
    State.beginStep_of_idle (s := (s.setEvents es).setProgram ws) hi, State.begun]

/-! ## A transfer with any HOST moves inside it -/

/-- `t` is reached from `s` with `n` more bytes of the running transfer sent and its end not reached. -/
structure TransferMoves (s : State) (n : Nat) (t : State) : Prop where
  legal : Legal t
  enabled : t.en = true
  active : t.isIdle = false
  len : t.len = s.len
  cur : t.cur.toNat = s.cur.toNat + n
  trace : t.trace.length = s.trace.length + n

namespace TransferMoves

variable {s t u : State} {m n : Nat}

theorem refl (hl : Legal s) (hen : s.en = true) (ha : s.isIdle = false) : TransferMoves s 0 s :=
  ⟨hl, hen, ha, rfl, rfl, rfl⟩

theorem trans (h : TransferMoves s m t) (h' : TransferMoves t n u) : TransferMoves s (m + n) u :=
  ⟨h'.legal, h'.enabled, h'.active, h'.len.trans h.len, by rw [h'.cur, h.cur, Nat.add_assoc],
    by rw [h'.trace, h.trace, Nat.add_assoc]⟩

/-- What is still to come in the schedule and the program plays no part. -/
theorem of_outside {ws : List Command} {es : List Event} (h : TransferMoves ((s.setEvents es).setProgram ws) n t) :
    TransferMoves s n t :=
  ⟨h.legal, h.enabled, h.active, h.len, h.cur, h.trace⟩

/-- A timing event before the last byte. -/
theorem of_tick (hl : Legal s) (hen : s.en = true) (ha : s.isIdle = false) (hlt : s.cur.toNat + 1 < s.len)
    (h : exec .tick s = .next t) : TransferMoves s 1 t := by
  obtain ⟨b, _, hs⟩ := execTick_of_active hl hen ha
  obtain rfl := Host.Outcome.next.inj (h.symm.trans hs)
  have hle := hl.len_le
  have hcur : (s.cursorAt (s.cur.toNat + 1)).toNat = s.cur.toNat + 1 := State.cursorAt_toNat hlt hle
  exact ⟨hl.execTick h, hen, State.isIdle_of_cur_lt (by rw [State.setCur_cur, hcur]; omega), rfl, hcur, by simp⟩

/-- A HOST effect moves no transfer: it writes no Active cursor and emits nothing. -/
theorem of_hostEffect (hl : Legal s) (hen : s.en = true) (ha : s.isIdle = false) (e : HostEffect s t) :
    TransferMoves s 0 t := by
  obtain ⟨he, _⟩ := hl.active ha
  obtain ⟨_, hcount, henabled, _⟩ := e.size_and_latch_fixed he
  obtain ⟨_, htrace⟩ := e.emits_nothing
  have hcur : t.cur = s.cur :=
    (e.cur_cases hl).resolve_right fun ⟨hi, _⟩ => absurd (hi.symm.trans ha) (by decide)
  refine ⟨e.keeps hl, henabled hen, ?_, ?_, congrArg BitVec.toNat hcur, congrArg List.length htrace⟩
  · rw [State.isIdle_eq_msb, hcur, ← State.isIdle_eq_msb, ha]
  · rw [State.len, State.len, State.leds, State.leds, hcount]

/-- Whatever HOST does in a stretch of the run order that is not refused, the transfer moves by one byte for each
timing event in it (R146). -/
theorem of_runSteps {es rest : List Event} (hl : Legal s) (hen : s.en = true) (ha : s.isIdle = false)
    (hev : s.events = es ++ rest) (hquiet : quiet es) (hrun : runSteps es.length s = .next t)
    (hlt : s.cur.toNat + es.count .tick < s.len) : TransferMoves s (es.count .tick) t := by
  induction es generalizing s with
  | nil => cases hrun; exact refl hl hen ha
  | cons e es ih =>
    obtain ⟨u, hstep, hrun⟩ := thenDo_eq_next.mp hrun
    suffices hmove : ∃ n, TransferMoves s n u ∧ u.events = es ++ rest ∧
        n + es.count .tick = (e :: es).count .tick by
      obtain ⟨n, hu, huev, hn⟩ := hmove
      have hult : u.cur.toNat + es.count .tick < u.len := by rw [hu.cur, hu.len]; omega
      exact hn ▸ hu.trans
        (ih hu.legal hu.enabled hu.active huev (fun hm => hquiet (List.mem_cons_of_mem e hm)) hrun hult)
    have hle := hl.setEvents (es ++ rest)
    cases e with
    | reset => exact absurd List.mem_cons_self hquiet
    | tick =>
      rw [List.count_cons_self] at hlt ⊢
      have htick := (step_of_tick hev).symm.trans hstep
      have hbelow : s.cur.toNat + 1 < s.len := by omega
      exact ⟨1, of_outside (ws := s.program) (es := es ++ rest) (of_tick hle hen ha hbelow htick),
        (congrArg State.events (execTick_frame htick) :), Nat.add_comm _ _⟩
    | host =>
      have hturn := (step_of_host_cons hev).symm.trans hstep
      obtain ⟨ws, hlw, heffect⟩ := hl.hostTurn_effect hturn
      refine ⟨0, of_outside (of_hostEffect hlw hen ha heffect), hle.hostTurn_events hturn, ?_⟩
      rw [Nat.zero_add, List.count_cons_of_ne (by decide)]

end TransferMoves

end Sys2Proof.Machine

namespace Sys2Proof.Proofs

open Sys2Proof.Machine

/-- Settles O32: the stretch is cut at the L-th timing event; before it every poll sees an Active engine, after it the
engine sends fillers until the poll that frees HOST. -/
theorem refreshEndsWithItsTransfer : Obligations.RefreshEndsWithItsTransfer := by
  intro s ws es rest hl he hen hi hissues hev hquiet
  have hstep := step_of_refresh he hi hissues hev
  have hstart : SentBytes (s.begun ws (es ++ rest) .refresh) 0 (s.begun ws (es ++ rest) .refresh) :=
    .zero (hl.step hstep) hen rfl
  refine ⟨fun hlt => ?_, fun before late rest' hes hrest hlast => ?_⟩
  · have hcount : 0 + es.count .tick < s.len := by rwa [Nat.zero_add]
    obtain ⟨t, hrun, ht, _⟩ := hstart.runSteps rfl hquiet (Nat.le_of_lt hcount) fun _ => ⟨rfl, hcount⟩
    rw [Nat.zero_add] at ht
    refine ⟨t, (runSteps_succ_of_step hstep _).trans hrun, seq_of_hostPart ht.hostPart, ?_, ht.cur_toNat hlt,
      (buf_of_hostPart ht.hostPart).trans (s.begun_buf ..), ht.trace⟩
    rw [State.isActive_eq, ht.isIdle_of_lt hlt]; rfl
  · subst hes hrest
    rw [quiet, List.mem_append, not_or] at hquiet
    obtain ⟨t, hrun, hhost, hcur, htrace, htev⟩ := hstart.runSteps_past_end (late := late) (rest := .host :: rest')
      (by simp) hquiet.1 rfl ((congrArg (· + 1) (Nat.zero_add _)).trans hlast)
    have hpoll : step t = .next ((t.setEvents rest').setSeq .idle) := by
      rw [step_of_host_cons htev, hostTurn_of_refresh (s := t.setEvents rest') (seq_of_hostPart hhost),
        State.setEvents_isIdle, State.isIdle_of_cur hcur]
      rfl
    refine ⟨(t.setEvents rest').setSeq .idle, ?_, rfl, program_of_hostPart hhost, rfl, hcur,
      (buf_of_hostPart hhost).trans (s.begun_buf ..), htrace⟩
    have hlength : (before ++ Event.tick :: List.replicate late .tick).length + 2 =
        before.length + (1 + late) + 1 + 1 := by simp; omega
    rw [hlength, runSteps_succ_of_step hstep, runSteps_add_of_run hrun, runSteps_succ_of_step hpoll]
    rfl

/-- Settles O36: after BEGIN nothing has been sent, and each of the `k` timing events sends the next byte. -/
theorem transferSendsTheBufferInOrder : Obligations.TransferSendsTheBufferInOrder := by
  intro s ws rest k hl he hen hi hissues hev hk
  have hstep := step_of_begin he hi hissues hev
  have hstart : SentBytes (s.begun ws (List.replicate k .tick ++ rest) .idle) 0
      (s.begun ws (List.replicate k .tick ++ rest) .idle) := .zero (hl.step hstep) hen rfl
  obtain ⟨t, hrun, ht, htev⟩ := hstart.runSteps rfl (by simp [quiet]) (by simpa using hk) (by simp)
  rw [List.length_replicate] at hrun
  rw [List.count_replicate_self, Nat.zero_add] at ht
  exact ⟨t, (runSteps_succ_of_step hstep k).trans hrun, ht.trace, ht.cur, ht.isIdle_iff hk,
    (buf_of_hostPart ht.hostPart).trans (s.begun_buf ..), hl.content_length he, seq_of_hostPart ht.hostPart,
    program_of_hostPart ht.hostPart, htev⟩

/-- Settles O37: timing events alone move the transfer, and the one that finds the cursor at L-1 ends it. -/
theorem nothingDisturbsARunningTransfer : Obligations.NothingDisturbsARunningTransfer := by
  intro s t es rest hl hen ha hev hquiet hrun hlt
  have ht := TransferMoves.of_runSteps hl hen (State.isIdle_eq_false_of_isActive ha) hev hquiet hrun hlt
  refine ⟨by rw [State.isActive_eq, ht.active]; rfl, ht.cur, ht.trace, fun hlast => ?_⟩
  obtain ⟨b, _, hu⟩ := execTick_of_active ht.legal ht.enabled ht.active
  have hend : t.cur.toNat + 1 = t.len := by rw [ht.cur, ht.len, hlast]
  exact ⟨_, hu, State.isIdle_of_cur (by rw [State.setCur_cur, hend, State.cursorAt_len])⟩

/-- Settles O34. -/
theorem tickEmitsExactlyOneByte : Obligations.TickEmitsExactlyOneByte :=
  fun _ => ⟨execTick_of_disabled, execTick_of_idle,
    fun hl hen ha => execTick_of_active hl hen (State.isIdle_eq_false_of_isActive ha)⟩

/-- Settles O28. -/
theorem beginStartsOnlyWhenIdle : Obligations.BeginStartsOnlyWhenIdle :=
  fun _ he => execBegin_of_exists he

/-- Settles O30: Idle is a negative cursor, and CONSTRUCT leaves the cursor IDLE. -/
theorem isDoneReportsIdle : Obligations.IsDoneReportsIdle := by
  refine ⟨fun s he => ?_, fun s he => State.needBuffer_of_absent he _, fun s t n he h => ?_⟩
  · rw [execIsDone_of_exists he, State.isIdle_eq_msb, BitVec.msb_eq_toInt]
    simp only [decide_eq_true_eq]
    rfl
  · obtain ⟨m, rfl⟩ := execConstruct_eq_next_of_absent he h
    rw [execIsDone_of_exists rfl, State.isIdle_of_cur (s.construct_cur m)]
    rfl

/-- Settles O31. -/
theorem refreshBeginsThenPolls : Obligations.RefreshBeginsThenPolls := by
  refine fun s => ⟨fun he => ?_, microStep_of_refresh⟩
  rw [execRefresh_of_exists he, State.beginStep_eq]
  rfl

end Sys2Proof.Proofs

/-! SUPPORT. The external interface (spec/42_external.md): what INIT, PACK and PEEK do, the frame of a dark strip, and
the run of INIT, which is that of CLEAR with the handler on; then the five statements about the external interface that
follow. -/

namespace Sys2Proof.Machine

/-! ## First micro-steps -/

/-- INIT with the handler off begins by turning it on (R100). -/
theorem execInit_of_disabled {s : State} (he : s.bufExists = true) (hen : s.en = false) :
    exec .init s = .next (s.enable.setSeq (.init 0)) := by
  simp [exec, execInit, State.needBuffer_of_exists he, hen]

/-- INIT with the handler on is refused (D13). -/
theorem execInit_of_enabled {s : State} (he : s.bufExists = true) (hen : s.en = true) :
    exec .init s = .refused .alreadyInitialised := by
  simp [exec, execInit, State.needBuffer_of_exists he, hen]

/-- PEEK of an index that holds a byte hands that byte back (R102). -/
theorem execPeek_of_holds {s : State} {i : Int} {b : Byte} (h0 : 0 ≤ i) (hb : s.holds i.toNat b) :
    exec (.peek i) s = .next (s.give (b.setWidth 32)) := by
  obtain ⟨he, hlt⟩ := State.lt_of_holds hb
  simp [exec, execPeek, State.needBuffer_of_exists he, State.bufIndexOf_of_range h0 (by omega : i < s.len),
    State.readThen_of_holds hb]

/-- PEEK outside the buffer is refused (D21). -/
theorem execPeek_of_outside {s : State} {i : Int} (he : s.bufExists = true) (h : i < 0 ∨ (s.len : Int) ≤ i) :
    exec (.peek i) s = .refused .peekOutsideBuffer := by
  simp [exec, execPeek, State.needBuffer_of_exists he, State.bufIndexOf_of_outside h]

/-! ## The frame of a dark strip -/

/-- The latch bytes by their place in the latch sequence, and no byte after them (R41). -/
theorem State.memRead_of_latched {s : State} (h : s.latched) (k : Nat) :
    s.memRead (3 * s.leds + k) = Config.latch[k]? := by
  obtain ⟨h0, h1, h2, h3⟩ := h
  match k with
  | 0 => exact h0
  | 1 => exact h1
  | 2 => exact h2
  | 3 => exact h3
  | k + 4 => rw [State.memRead_eq, if_neg (fun hlt => by rw [State.len] at hlt; omega)]; rfl

/-- A dark strip's buffer is 3N zero bytes and the latch bytes (R41, R83). -/
theorem Legal.content_of_dark {s : State} (hl : Legal s) (he : s.bufExists = true) (hdark : s.dark) :
    s.content = List.replicate (3 * s.leds) 0x00#8 ++ Config.latch := by
  refine List.ext_getElem? fun a => ?_
  rw [hl.content_get he, List.getElem?_append, List.length_replicate]
  split
  · next ha => rw [hdark a ha, List.getElem?_replicate_of_lt ha]
  · next ha =>
    obtain ⟨k, rfl⟩ := Nat.exists_eq_add_of_le (Nat.not_lt.mp ha)
    rw [State.memRead_of_latched (hl.latch he), Nat.add_sub_cancel_left]

/-! ## Runs in which no transfer starts -/

/-- The engine is Idle and every byte it has sent is the filler. -/
def State.onlyFillers (s : State) : Prop := s.isIdle = true ∧ ∀ b ∈ s.trace, b = Config.filler

/-- A timing event sends one more filler, or nothing. -/
theorem State.onlyFillers.execTick {s t : State} (h : s.onlyFillers) (ht : exec .tick s = .next t) :
    t.onlyFillers := by
  obtain ⟨hi, hbytes⟩ := h
  obtain ⟨_, rfl⟩ | ⟨_, _, rfl⟩ | ⟨_, hactive, _⟩ := takeTimingEvent_cases ht
  · exact ⟨hi, hbytes⟩
  · refine ⟨hi, fun b hb => ?_⟩
    rw [State.emit_trace, List.mem_append, List.mem_singleton] at hb
    exact hb.elim (hbytes b) id
  · exact absurd (hi.symm.trans hactive) (by decide)

/-- A HOST move that leaves the cursor alone starts no transfer. -/
theorem State.onlyFillers.hostTurn {s t : State} (h : s.onlyFillers) (ht : hostTurn s = .next t)
    (hcur : t.cur = s.cur) : t.onlyFillers := by
  obtain ⟨hi, hbytes⟩ := h
  obtain ⟨_, htrace⟩ := hostTurn_emits_nothing ht
  exact ⟨by rw [State.isIdle_eq_msb, hcur, ← State.isIdle_eq_msb, hi], by rwa [htrace]⟩

/-- HOST's moves through a chain of expected states, none of which writes the cursor: an engine that was Idle before
them sends fillers only. -/
theorem HostProgress.of_hostPart_of_cur {n : Nat} {expected : Nat → State} (wasIdle : Prop)
    (h : ∀ {j t}, j < n → t.hostPart = (expected j).hostPart →
      ∃ u, hostTurn t = .next u ∧ u.hostPart = (expected (j + 1)).hostPart ∧ u.cur = t.cur) :
    HostProgress n fun j t => t.hostPart = (expected j).hostPart ∧ (wasIdle → t.onlyFillers) where
  schedule _ := id
  tick _ ht hu := ⟨(execTick_hostPart hu).trans ht.1, fun hi => (ht.2 hi).execTick hu⟩
  host hj _ ht := by
    obtain ⟨u, hu, hhost, hcur⟩ := h hj ht.1
    exact ⟨u, hu, hhost, fun hi => (ht.2 hi).hostTurn hu hcur⟩

/-! ## The run of INIT -/

/-- The state after the first `j` moves of INIT, with no timing event between them: once the handler is on, that of
CLEAR one move behind, but for the name of the running operation (R100). -/
def afterInit (ws : List Command) (s : State) : Nat → State
  | 0 => s
  | j + 1 => ((clearWrites.after ws s j).setProgram ws).enable.setSeq (.init j)

/-- HOST's first turn of INIT takes the command word and turns the handler on. -/
theorem hostTurn_init_first {s t : State} {ws : List Command} (he : s.bufExists = true) (hen : s.en = false)
    (hi : s.issues .init ws) (ht : t.hostPart = s.hostPart) :
    hostTurn t = .next ((t.setProgram ws).enable.setSeq (.init 0)) := by
  rw [hostTurn_of_issues (issues_of_hostPart ht hi) rfl]
  exact execInit_of_disabled ((bufExists_of_hostPart ht).trans he) ((en_of_hostPart ht).trans hen)

/-- HOST's later turns of INIT are the micro-steps of its clear. -/
theorem hostTurn_init_clear {s t : State} {ws : List Command} {j : Nat}
    (ht : t.hostPart = (afterInit ws s (j + 1)).hostPart) : hostTurn t = t.clearByte .init j := by
  have hq : t.seq = .init j := seq_of_hostPart ht
  rw [hostTurn_of_running (by rw [hq]; nofun), microStep_of_clearing (.inr rfl) hq]

/-- A byte write of INIT's clear takes INIT one move on. -/
theorem afterInit_write {s t : State} {ws : List Command} {j : Nat}
    (ht : t.hostPart = (afterInit ws s (j + 1)).hostPart) :
    ((t.setBuf (Memory.write t.buf j 0x00#8)).setSeq (.init (j + 1))).hostPart =
      (afterInit ws s (j + 2)).hostPart := by
  have hwrite := congrArg (fun x => (x.setBuf (Memory.write x.buf j 0x00#8)).setSeq (.init (j + 1))) ht
  rw [afterInit, ByteWrites.after, ByteWrites.move, show clearWrites.base + j = j from Nat.zero_add j]
  exact hwrite

/-- INIT before its begin step, under any schedule with its 3N + 1 HOST moves: HOST is where it should be, and an
engine that was Idle still is and has sent fillers only. -/
theorem runSteps_initWrites {s : State} {ws : List Command} {es rest : List Event} (hl : Legal s)
    (he : s.bufExists = true) (hen : s.en = false) (hi : s.issues .init ws) (hev : s.events = es ++ rest)
    (hquiet : quiet es) (hcount : es.count .host = 3 * s.leds + 1) :
    ∃ t, runSteps es.length s = .next t ∧ Legal t ∧
      (t.hostPart = (afterInit ws s (3 * s.leds + 1)).hostPart ∧ (s.isIdle = true → t.onlyFillers)) ∧
      t.events = rest := by
  have hP : HostProgress (3 * s.leds + 1) fun j t =>
      t.hostPart = (afterInit ws s j).hostPart ∧ (s.isIdle = true → t.onlyFillers) := by
    refine .of_hostPart_of_cur _ fun {j t} hj ht => ?_
    cases j with
    | zero =>
      exact ⟨_, hostTurn_init_first he hen hi ht,
        (congrArg (fun x => (x.setProgram ws).enable.setSeq (.init 0)) ht :), rfl⟩
    | succ j =>
      have het : t.bufExists = true := (bufExists_of_hostPart ht).trans ((clearWrites.after_bufExists ws s j).trans he)
      have hleds : t.leds = s.leds := (leds_of_hostPart ht).trans (clearWrites.after_leds ws s j)
      exact ⟨_, (hostTurn_init_clear ht).trans (State.clearByte_of_lt het (by omega)), afterInit_write ht, rfl⟩
  have hsilent : ∀ b ∈ s.trace, b = Config.filler := by
    rw [(hl.silent hen).1]; nofun
  exact hP.runSteps (j := 0) hl ⟨rfl, fun hidle => ⟨hidle, hsilent⟩⟩ hev hquiet (by omega)

/-- INIT under any schedule with its 3N + 2 HOST moves, the last of which is the begin step. -/
theorem runSteps_init {s : State} {ws : List Command} {es rest : List Event} (hl : Legal s)
    (he : s.bufExists = true) (hen : s.en = false) (hi : s.issues .init ws) (hev : s.events = es ++ .host :: rest)
    (hquiet : quiet es) (hcount : es.count .host = 3 * s.leds + 1) :
    ∃ t, runSteps (es.length + 1) s = .next t ∧ Legal t ∧ t.isActive = true ∧
      t.hostPart = ((afterInit ws s (3 * s.leds + 1)).setSeq .idle).hostPart ∧ t.events = rest ∧
      (s.isIdle = true → t.cur = 0#16 ∧ ∀ b ∈ t.trace, b = Config.filler) := by
  obtain ⟨u, hrun, hlu, ⟨hu, hfillers⟩, hrest⟩ := runSteps_initWrites hl he hen hi hev hquiet hcount
  have hleds : u.leds = s.leds := (leds_of_hostPart hu).trans (clearWrites.after_leds ws s _)
  have hge : 3 * (u.setEvents rest).leds ≤ 3 * s.leds := Nat.le_of_eq (congrArg (3 * ·) hleds)
  have hstep : step u = .next ((u.setEvents rest).beginStep.setSeq .idle) := by
    rw [step_of_host_cons hrest, hostTurn_init_clear (t := u.setEvents rest) hu, State.clearByte_of_ge hge]
  refine ⟨_, (runSteps_add_of_run hrun 1).trans (runSteps_succ_of_step hstep 0), hlu.step hstep,
    State.beginStep_isActive _, ?_, ?_, fun hidle => ?_⟩
  · rw [State.beginStep_eq_setCur]
    exact congrArg (State.setSeq · .idle) hu
  · rw [State.beginStep_eq_setCur]; rfl
  · obtain ⟨huidle, hbytes⟩ := hfillers hidle
    rw [State.beginStep_of_idle (s := u.setEvents rest) huidle]
    exact ⟨rfl, hbytes⟩

end Sys2Proof.Machine

namespace Sys2Proof.Proofs

open Sys2Proof.Machine

/-- Settles O27: the run ends in the state after INIT's begin step with HOST free, up to what timing events change, and
in it the LED bytes are those that CLEAR leaves. -/
theorem initDarkensTheStripUnderAnySchedule : Obligations.InitDarkensTheStripUnderAnySchedule := by
  intro s ws es rest hl he hen hi hev hquiet hcount
  obtain ⟨t, hrun, hlt, hactive, ht, hrest, hidle⟩ := runSteps_init hl he hen hi hev hquiet hcount
  have hbuf : t.bufExists = true := (bufExists_of_hostPart ht).trans ((clearWrites.after_bufExists ws s _).trans he)
  refine ⟨t, hrun, seq_of_hostPart ht, program_of_hostPart ht, hrest, en_of_hostPart ht, fun a ha => ?_,
    hlt.latch hbuf, hactive, (ledCount_of_hostPart ht).trans (clearWrites.after_ledCount ws s _),
    (returned_of_hostPart ht).trans (clearWrites.after_returned ws s _), hidle⟩
  rw [leds_of_hostPart ht] at ha
  exact (memRead_of_hostPart ht a).trans (clearWrites_dark he ws a ha)

/-- Settles O41. -/
theorem packPutsGreenBlueRed : Obligations.PackPutsGreenBlueRed :=
  fun _ r g b => ⟨packGBR g b r, execPack_eq_next.mpr rfl, packGBR_toNat g b r⟩

/-- Settles O42. -/
theorem peekReadsOneRawByte : Obligations.PeekReadsOneRawByte := by
  refine fun s a he => ⟨fun b h0 hb => ?_, fun hl h0 hlt => ?_, execPeek_of_outside he⟩
  · rw [BitVec.ofNat_toNat]
    exact execPeek_of_holds h0 hb
  · obtain ⟨b, hb⟩ := hl.readable he (by omega : a.toNat < s.len)
    exact ⟨_, execPeek_of_holds h0 hb⟩

/-- Settles O47: the L timing events send the whole buffer, which on a dark strip is the all-off frame. -/
theorem darkTransferSendsTheAllOffFrame : Obligations.DarkTransferSendsTheAllOffFrame := by
  intro s rest hl he hen hdark hcur hev
  obtain ⟨t, hrun, ht, htev⟩ := (SentBytes.zero hl hen hcur).runSteps hev (by simp [quiet]) (by simp) (by simp)
  rw [List.length_replicate] at hrun
  rw [List.count_replicate_self, Nat.zero_add] at ht
  refine ⟨t, hrun, ?_, ht.cur.trans s.cursorAt_len, htev⟩
  rw [ht.trace, List.take_of_length_le (Nat.le_of_eq (hl.content_length he)), hl.content_of_dark he hdark,
    List.append_assoc]
  rfl

/-- Settles O26. -/
theorem initEnablesTheHandlerFirst : Obligations.InitEnablesTheHandlerFirst :=
  fun _ he => ⟨execInit_of_disabled he, execInit_of_enabled he⟩

end Sys2Proof.Proofs

/-! SUPPORT. Exceptions (spec/60_exceptions.md): which operations are refused, that no legal state reaches a fault, the
operations that are ignored, and what a timing event does not see of HOST; then the eight statements about exceptions
that follow. -/

namespace Sys2Proof.Machine

/-! ## Refusals -/

/-- The operation ends in a refusal, for whatever reason (R115). -/
def refuses (r : Result) : Prop := ∃ reason, r = .refused reason

@[simp] theorem refuses_refused (reason : Refusal) : refuses (.refused reason) := ⟨reason, rfl⟩

@[simp] theorem not_refuses_next (s : State) : ¬ refuses (.next s) := nofun

@[simp] theorem not_refuses_fault (e : Fault) : ¬ refuses (.fault e) := nofun

/-- The test for a buffer adds one reason to those of the operation behind it (R115, D29). -/
@[simp] theorem refuses_needBuffer (s : State) (r : Result) :
    refuses (s.needBuffer r) ↔ s.bufExists = false ∨ refuses r := by
  cases he : s.bufExists with
  | false => simp [State.needBuffer_of_absent he]
  | true => simp [State.needBuffer_of_exists he]

/-- A read itself is never refused: outside the buffer it is a fault (R12). -/
theorem not_refuses_readThen {s : State} {a : Nat} {f : Byte → Result} (h : ∀ b, ¬ refuses (f b)) :
    ¬ refuses (s.readThen a f) := by
  rw [State.readThen]
  split
  · exact h _
  · exact not_refuses_fault _

/-- A write itself is never refused either. -/
theorem not_refuses_thenDo_memWrite {s : State} {a : Nat} {v : Byte} {f : State → Result} (h : ∀ t, ¬ refuses (f t)) :
    ¬ refuses (thenDo (s.memWrite a v) f) := by
  rw [State.memWrite]
  split
  · exact h _
  · exact not_refuses_fault _

@[simp] theorem not_refuses_writeSlotByte (s : State) (slot : Nat) (colour : Value) (k : Fin 3) :
    ¬ refuses (s.writeSlotByte slot colour k) := by
  match k with
  | 0 | 1 | 2 => exact not_refuses_thenDo_memWrite fun _ => not_refuses_next _

@[simp] theorem not_refuses_clearByte (s : State) (running : Nat → Sequencer) (k : Nat) :
    ¬ refuses (s.clearByte running k) := by
  rw [State.clearByte]
  split
  · exact not_refuses_thenDo_memWrite fun _ => not_refuses_next _
  · exact not_refuses_next _

theorem not_refuses_execTick (s : State) : ¬ refuses (exec .tick s) := by
  rw [exec, execTick, State.takeTimingEvent, State.emitOneByte]
  split
  · split
    · exact not_refuses_next _
    · exact not_refuses_readThen fun _ => not_refuses_next _
  · exact not_refuses_next _

theorem refuses_execConstruct (s : State) (n : Int) :
    refuses (exec (.construct n) s) ↔ s.bufExists = false ∧ (n < 0 ∨ 10921 < n) := by
  rw [exec, execConstruct]
  cases he : s.bufExists with
  | true => simp
  | false =>
    have hmax : Config.nmax = 10921 := rfl
    by_cases hn : n < 0 ∨ 10921 < n
    · simp [countOf_of_outside (i := n) (by omega), hn]
    · have hcount : countOf n = some n.toNat := countOf_eq_some.mpr ⟨by omega, rfl, by omega⟩
      simp [hcount, hn]

theorem refuses_execInit (s : State) : refuses (exec .init s) ↔ s.bufExists = false ∨ s.en = true := by
  rw [exec, execInit, refuses_needBuffer]
  cases hen : s.en <;> simp

theorem refuses_execSetColor (s : State) (i : Int) (c : Value) :
    refuses (exec (.setColor i c) s) ↔ s.bufExists = false := by
  rw [exec, execSetColor, refuses_needBuffer]
  cases s.slotOf i <;> simp

theorem refuses_execGetColor (s : State) (i : Int) : refuses (exec (.getColor i) s) ↔ s.bufExists = false := by
  rw [exec, execGetColor, refuses_needBuffer]
  cases s.slotOf i with
  | none => simp
  | some slot =>
    exact or_iff_left (not_refuses_readThen fun _ => not_refuses_readThen fun _ => not_refuses_readThen fun _ =>
      not_refuses_next _)

theorem refuses_execPeek (s : State) (a : Int) :
    refuses (exec (.peek a) s) ↔ s.bufExists = false ∨ a < 0 ∨ (s.len : Int) ≤ a := by
  rw [exec, execPeek, refuses_needBuffer]
  by_cases ha : a < 0 ∨ (s.len : Int) ≤ a
  · simp [State.bufIndexOf_of_outside ha, ha]
  · rw [State.bufIndexOf_of_range (by omega) (by omega)]
    simp only [ha, not_refuses_readThen fun _ => not_refuses_next _]

/-! ## No fault from a legal state -/

theorem State.needBuffer_ne_fault {s : State} {r : Result} {f : Fault} (h : s.bufExists = true → r ≠ .fault f) :
    s.needBuffer r ≠ .fault f := by
  cases he : s.bufExists with
  | false => rw [State.needBuffer_of_absent he]; nofun
  | true => rw [State.needBuffer_of_exists he]; exact h he

/-- An index that PEEK accepts is below L (R102). -/
theorem State.bufIndexOf_lt {s : State} {i : Int} {a : Nat} (h : s.bufIndexOf i = some a) : a < s.len := by
  rw [State.bufIndexOf] at h
  split at h
  · cases h
  · cases h; omega

theorem Legal.readThen_ne_fault {s : State} (hl : Legal s) (he : s.bufExists = true) {a : Nat} (ha : a < s.len)
    {f : Byte → Result} {e : Fault} (h : ∀ b, f b ≠ .fault e) : s.readThen a f ≠ .fault e := by
  obtain ⟨b, hb⟩ := hl.readable he ha
  rw [State.readThen_of_holds hb]
  exact h b

theorem State.writeSlotByte_ne_fault {s : State} {slot : Nat} (he : s.bufExists = true) (hs : slot < s.leds)
    (colour : Value) (k : Fin 3) (f : Fault) : s.writeSlotByte slot colour k ≠ .fault f := by
  rw [State.writeSlotByte_of_lt he hs]; nofun

theorem State.clearByte_ne_fault {s : State} (he : s.bufExists = true) (running : Nat → Sequencer) (k : Nat)
    (f : Fault) : s.clearByte running k ≠ .fault f := by
  by_cases hk : k < 3 * s.leds
  · rw [State.clearByte_of_lt he hk]; nofun
  · rw [State.clearByte_of_ge (Nat.not_lt.mp hk)]; nofun

/-- In a legal state no operation reads or writes a byte that does not exist (R12, R110). -/
theorem Legal.exec_ne_fault {s : State} (hl : Legal s) (i : Instr) (f : Fault) : exec i s ≠ .fault f := by
  cases i with
  | construct n =>
    rw [exec, execConstruct]
    split
    · nofun
    · cases countOf n <;> nofun
  | init =>
    refine State.needBuffer_ne_fault fun _ => ?_
    cases s.en <;> nofun
  | setColor i c =>
    refine State.needBuffer_ne_fault fun he => ?_
    cases hs : s.slotOf i with
    | none => nofun
    | some slot =>
      obtain ⟨_, _, hslot⟩ := State.slotOf_eq_some.mp hs
      exact State.writeSlotByte_ne_fault he hslot _ 0 f
  | getColor i =>
    refine State.needBuffer_ne_fault fun he => ?_
    cases hs : s.slotOf i with
    | none => nofun
    | some slot =>
      obtain ⟨_, _, hslot⟩ := State.slotOf_eq_some.mp hs
      have haddr (k : Fin 3) : slotAddr slot k < s.len :=
        Nat.lt_of_lt_of_le (slotAddr_lt hslot k) (Nat.le_add_left _ _)
      exact hl.readThen_ne_fault he (haddr 0) fun _ => hl.readThen_ne_fault he (haddr 1) fun _ =>
        hl.readThen_ne_fault he (haddr 2) fun _ => nofun
  | clear => exact State.needBuffer_ne_fault fun he => State.clearByte_ne_fault he _ _ f
  | beginTransfer | isDone | refresh => exact State.needBuffer_ne_fault fun _ => nofun
  | pack r g b => nofun
  | peek i =>
    refine State.needBuffer_ne_fault fun he => ?_
    cases ha : s.bufIndexOf i with
    | none => nofun
    | some a => exact hl.readThen_ne_fault he (State.bufIndexOf_lt ha) fun _ => nofun
  | tick =>
    obtain ⟨t, ht⟩ := execTick_answers hl
    rw [ht]; nofun

/-- The sequencer of a legal state stands on bytes that exist. -/
theorem Legal.microStep_ne_fault {s : State} (hl : Legal s) (f : Fault) : microStep s ≠ .fault f := by
  have hseq := hl.sequencer
  rw [microStep]
  cases hq : s.seq with
  | idle => nofun
  | setColor slot colour next =>
    rw [hq] at hseq
    obtain ⟨he, hslot, _⟩ := hseq
    exact State.writeSlotByte_ne_fault he hslot colour next f
  | clear next =>
    rw [hq] at hseq
    obtain ⟨he, _⟩ := hseq
    exact State.clearByte_ne_fault he _ next f
  | init next =>
    rw [hq] at hseq
    obtain ⟨he, _⟩ := hseq
    exact State.clearByte_ne_fault he _ next f
  | refresh => nofun

theorem Legal.hostTurn_ne_fault {s : State} (hl : Legal s) (f : Fault) : hostTurn s ≠ .fault f := by
  by_cases hq : s.seq = .idle
  · cases hp : s.program with
    | nil => rw [hostTurn_of_no_word hq hp]; nofun
    | cons w ws =>
      cases hd : decode (.command w) with
      | error reason => rw [hostTurn_of_invalid hq hp hd]; nofun
      | ok i => rw [hostTurn_of_decoded hq hp hd]; exact (hl.setProgram ws).exec_ne_fault i f
  · rw [hostTurn_of_running hq]; exact hl.microStep_ne_fault f

theorem Legal.step_ne_fault {s : State} (hl : Legal s) (f : Fault) : Machine.step s ≠ .fault f := by
  cases hev : s.events with
  | nil => rw [step_of_host (.inl hev)]; exact (hl.setEvents _).hostTurn_ne_fault f
  | cons e es =>
    cases e with
    | tick => rw [step_of_tick hev]; exact (hl.setEvents es).exec_ne_fault .tick f
    | host => rw [step_of_host (.inr ⟨es, hev⟩)]; exact (hl.setEvents _).hostTurn_ne_fault f
    | reset => rw [Machine.step, State.takeTurn_cons hev]; nofun

/-! ## The clamp, and what is ignored -/

theorem clampColour_of_ge {c : Value} (h : 0xFFFFFF ≤ c.toNat) : clampColour c = Config.clampTo := if_pos h

theorem clampColour_of_lt {c : Value} (h : c.toNat < 0xFFFFFF) : clampColour c = c := if_neg (Nat.not_le.mpr h)

/-- SETCOLOR sees its colour through the clamp alone (R81, R112). -/
theorem execSetColor_congr {c d : Value} (h : clampColour c = clampColour d) (i : Int) (s : State) :
    exec (.setColor i c) s = exec (.setColor i d) s := by
  simp only [exec, execSetColor, h]

/-- SETCOLOR with a bad index is ignored (R111). -/
theorem execSetColor_of_outside {s : State} {i : Int} (c : Value) (he : s.bufExists = true)
    (h : i < 0 ∨ (s.leds : Int) ≤ i) : exec (.setColor i c) s = .next s := by
  simp [exec, execSetColor, State.needBuffer_of_exists he, State.slotOf_of_outside h]

/-- GETCOLOR with a bad index returns 0 (R111). -/
theorem execGetColor_of_outside {s : State} {i : Int} (he : s.bufExists = true) (h : i < 0 ∨ (s.leds : Int) ≤ i) :
    exec (.getColor i) s = .next (s.give 0#32) := by
  simp [exec, execGetColor, State.needBuffer_of_exists he, State.slotOf_of_outside h]

/-- A begin step while Active is ignored (R113). -/
theorem State.beginStep_of_active {s : State} (ha : s.isActive = true) : s.beginStep = s :=
  if_neg (Bool.eq_false_iff.mp (State.isIdle_eq_false_of_isActive ha))

/-! ## What a timing event does not see -/

/-- TICK goes the same way, and carries HOST's fields along, whatever is in them (R118, INV8). -/
theorem execTick_of_hostFields {s t : State} (h : exec .tick s = .next t) (q : Sequencer) (r : List Value) (d : Nat)
    (p : List Command) (es : List Event) :
    exec .tick { s with seq := q, returned := r, draws := d, program := p, events := es } =
      .next { t with seq := q, returned := r, draws := d, program := p, events := es } := by
  obtain ⟨hen, rfl⟩ | ⟨hen, hi, rfl⟩ | ⟨hen, hi, b, hb, rfl⟩ := takeTimingEvent_cases h
  · exact execTick_of_disabled hen
  · exact execTick_of_idle hen hi
  · exact execTick_of_holds hen hi hb

end Sys2Proof.Machine

namespace Sys2Proof.Proofs

open Sys2Proof.Machine

/-- Settles O9. -/
theorem legalStatesNeverFault : Obligations.LegalStatesNeverFault :=
  fun _ f hl => hl.step_ne_fault f

/-- Settles O18: SETCOLOR sees its colour through the clamp alone, which leaves a colour below 0xFFFFFF as it is. -/
theorem reservedColourIsClamped : Obligations.ReservedColourIsClamped := by
  refine ⟨fun s i c hc => execSetColor_congr (clampColour_of_ge hc) i s, fun s i c hc he h0 h1 => ?_⟩
  obtain ⟨t, ht, hread, hframe⟩ := setColorBeginsWithItsFirstByte s i c he h0 h1
  rw [clampColour_of_lt hc] at hread hframe
  exact ⟨t, ht, (congrArg State.seq hframe :), (hread _).trans (if_pos rfl)⟩

/-- Settles O35. -/
theorem engineTouchesOnlyCursorOutputAndTrace : Obligations.EngineTouchesOnlyCursorOutputAndTrace := by
  refine ⟨fun s t h => ⟨execTick_frame h, fun a => (congrArg (State.memRead · a) (execTick_frame h) :)⟩,
    fun s t s' h hs' => ?_⟩
  rw [hs']
  exact ⟨_, execTick_of_hostFields h _ _ _ _ _, rfl, rfl, rfl⟩

/-- Settles O43, one operation at a time. -/
theorem undefinedSituationsAreRefused : Obligations.UndefinedSituationsAreRefused := by
  intro s i
  cases i with
  | construct n => exact refuses_execConstruct s n
  | init => exact refuses_execInit s
  | setColor i c => exact refuses_execSetColor s i c
  | getColor i => exact refuses_execGetColor s i
  | clear => exact (refuses_needBuffer s _).trans (or_iff_left (not_refuses_clearByte s _ _))
  | beginTransfer | isDone | refresh => exact (refuses_needBuffer s _).trans (or_iff_left (not_refuses_next _))
  | pack r g b => exact iff_false_intro (not_refuses_next _)
  | peek a => exact refuses_execPeek s a
  | tick => exact iff_false_intro (not_refuses_execTick s)

/-- Settles O11. -/
theorem stepRunsTheNextCommandWord : Obligations.StepRunsTheNextCommandWord :=
  fun _ _ _ _ ⟨hq, hev⟩ hp hd => (step_of_host hev).trans (hostTurn_of_decoded hq hp hd)

/-- Settles O12. -/
theorem stepTakesATimingEventAtAnyPoint : Obligations.StepTakesATimingEventAtAnyPoint := by
  refine fun s es hev => ⟨step_of_tick hev, fun t h => ?_⟩
  have hframe := execTick_frame ((step_of_tick hev).symm.trans h)
  exact ⟨(congrArg State.seq hframe :), (congrArg State.program hframe :), (congrArg State.events hframe :)⟩

/-- Settles O17. -/
theorem badIndexIsIgnoredOrReadsZero : Obligations.BadIndexIsIgnoredOrReadsZero :=
  fun _ _ c he hi => ⟨execSetColor_of_outside c he hi, execGetColor_of_outside he hi⟩

/-- Settles O29: the begin step of each operation leaves an Active state as it is. -/
theorem startWhileActiveIsIgnored : Obligations.StartWhileActiveIsIgnored := by
  intro s he ha
  have hbegin := State.beginStep_of_active ha
  have hlast {running : Nat → Sequencer} (hr : running = .clear ∨ running = .init) (hq : s.seq = running (3 * s.leds)) :
      microStep s = .next (s.setSeq .idle) := by
    rw [microStep_of_clearing hr hq, State.clearByte_of_ge (Nat.le_refl _), hbegin]
  refine ⟨?_, ?_, ?_⟩
  · rw [execBegin_of_exists he, hbegin]
  · rw [execRefresh_of_exists he, hbegin]; rfl
  · rintro (hq | hq)
    · exact hlast (.inl rfl) hq
    · exact hlast (.inr rfl) hq

end Sys2Proof.Proofs

/-! SUPPORT. Reset and hazards (spec/70_reset_and_hazards.md): what runs before CONSTRUCT, the second CONSTRUCT, the
step of the reset input, and the moves that a polling REFRESH does not end with; then the four statements about reset
and hazards that follow. -/

namespace Sys2Proof.Machine

/-! ## Before and after CONSTRUCT -/

/-- Before CONSTRUCT every host operation but CONSTRUCT and PACK is refused (R115, R131, D9). -/
theorem exec_of_absent {s : State} {i : Instr} (he : s.bufExists = false) (htick : i ≠ .tick)
    (hconstruct : ∀ n, i ≠ .construct n) (hpack : ∀ r g b, i ≠ .pack r g b) :
    exec i s = .refused .noStripBuffer := by
  cases i with
  | construct n => exact absurd rfl (hconstruct n)
  | pack r g b => exact absurd rfl (hpack r g b)
  | tick => exact absurd rfl htick
  | init | setColor | getColor | clear | beginTransfer | isDone | refresh | peek =>
    exact State.needBuffer_of_absent he _

/-- CONSTRUCT while a buffer exists is ignored, whatever its operand (R143, D30). -/
theorem execConstruct_of_exists {s : State} (he : s.bufExists = true) (n : Int) : exec (.construct n) s = .next s :=
  if_pos he

/-! ## The reset input -/

/-- A reset that is the next move puts the block in its power-on state (R130). -/
theorem step_of_reset {s : State} {es : List Event} (h : s.events = .reset :: es) :
    step s = .next (s.setEvents es).powerOn := by
  rw [step, State.takeTurn_cons h]

/-! ## REFRESH that finds no end -/

/-- A poll that finds the engine Active leaves everything as it is (R95). -/
theorem hostTurn_of_refresh_of_active {s : State} (hq : s.seq = .refresh) (ha : s.isActive = true) :
    hostTurn s = .next s := by
  rw [hostTurn_of_refresh hq, State.isIdle_eq_false_of_isActive ha, if_neg Bool.false_ne_true]

/-- A move that brings a polling REFRESH no nearer to its end: a poll, or a timing event with the handler off. -/
def State.stalls (s : State) (e : Event) : Prop := e = .host ∨ (e = .tick ∧ s.en = false)

theorem step_of_stalls {s : State} {e : Event} {es : List Event} (hq : s.seq = .refresh) (ha : s.isActive = true)
    (he : s.stalls e) (hev : s.events = e :: es) : step s = .next (s.setEvents es) := by
  obtain rfl | ⟨rfl, hen⟩ := he
  · exact (step_of_host_cons hev).trans (hostTurn_of_refresh_of_active hq ha)
  · exact (step_of_tick hev).trans (execTick_of_disabled hen)

/-- A stretch of such moves changes nothing but the list of moves, so it can go on for ever (R114, R139). -/
theorem runSteps_of_stalls {s : State} {es rest : List Event} (hq : s.seq = .refresh) (ha : s.isActive = true)
    (hes : ∀ e ∈ es, s.stalls e) (hev : s.events = es ++ rest) :
    runSteps es.length s = .next (s.setEvents rest) := by
  induction es generalizing s with
  | nil =>
    obtain rfl : s.events = rest := hev
    rfl
  | cons e es ih =>
    obtain ⟨he, hes⟩ := List.forall_mem_cons.mp hes
    exact (runSteps_succ_of_step (step_of_stalls hq ha he hev) es.length).trans
      (ih (s := s.setEvents (es ++ rest)) hq ha hes rfl)

/-- The same when the environment has stopped and only HOST's polls come (R7, D19). -/
theorem runSteps_of_polls_without_events {s : State} (hq : s.seq = .refresh) (ha : s.isActive = true)
    (hev : s.events = []) (k : Nat) : runSteps k s = .next s := by
  have hstep : step s = .next s := by
    rw [step, State.takeTurn_nil hev]
    exact hostTurn_of_refresh_of_active hq ha
  induction k with
  | zero => rfl
  | succ k ih => exact (runSteps_succ_of_step hstep k).trans ih

end Sys2Proof.Machine

namespace Sys2Proof.Proofs

open Sys2Proof.Machine

/-- Settles O33: with the handler off every move but a reset stalls, and a poll always does. -/
theorem refreshHangsWithoutTimingEvents : Obligations.RefreshHangsWithoutTimingEvents := by
  refine fun s es rest hq ha => ⟨fun hen hquiet hev => ?_, fun k hev => ?_,
    fun k hev => runSteps_of_polls_without_events hq ha hev k⟩
  · refine runSteps_of_stalls hq ha (fun e he => ?_) hev
    cases e with
    | tick => exact .inr ⟨rfl, hen⟩
    | host => exact .inl rfl
    | reset => exact absurd he hquiet
  · have hrun := runSteps_of_stalls hq ha (fun e he => .inl (List.eq_of_mem_replicate he)) hev
    rwa [List.length_replicate] at hrun

/-- Settles O6. -/
theorem resetLeavesAnEmptyIdleBlock : Obligations.ResetLeavesAnEmptyIdleBlock := by
  refine ⟨rfl, rfl, rfl, rfl, rfl, rfl, rfl, rfl, execTick_of_disabled rfl, fun i => exec_of_absent rfl,
    fun n h0 hn => ?_, fun r g b => ⟨_, rfl⟩⟩
  have hrange : n.toNat ≤ Config.nmax := Int.toNat_le.mpr hn
  exact ⟨_, execConstruct_of_range rfl h0 hrange, rfl⟩

/-- Settles O10. -/
theorem resetInputStartsANewLife : Obligations.ResetInputStartsANewLife :=
  fun _ _ hev => ⟨_, step_of_reset hev, rfl, rfl, rfl, rfl, rfl, rfl, rfl, rfl, rfl, rfl, rfl, rfl⟩

/-- Settles O16: the second CONSTRUCT leaves the size, so SETCOLOR still sees an index outside it. -/
theorem secondConstructIsIgnored : Obligations.SecondConstructIsIgnored := by
  refine fun s n he => ⟨execConstruct_of_exists he n, fun i c hi _ => ?_⟩
  rw [execConstruct_of_exists he, thenDo_next, execSetColor_of_outside c he (.inr hi)]

end Sys2Proof.Proofs
